-- ==== Sys2Proof/Config.lean ====
section
/-! DEFINITION. What one implementation fixes (spec/00_scope.md R7) and the model's free values. -/

namespace Sys2Proof.Config

/-- `LENW` (R7, D3): bits in the `LEN` operand and in `RESULT`. It is a parameter of the spec and an argument of the
model: every type and every meaning takes it. This is its default, the width that the opcode table's 34-bit command
words have, and the one at which `State`, `exec` and `step` stand where no width is named. Log 1. -/
abbrev LENW : Nat := 32

/-- `FAILVAL` (R7, R22, D4): all `LENW` bits set, the value of `RESULT` after a failed decode. -/
def failVal {w : Nat} : BitVec w := BitVec.allOnes w

/-- `PADCH` (R7, R49): the code of `=`. -/
def padCh : BitVec 8 := 0x3D#8

/-- FREE VALUE (R93, D14, U1, U10). `freeByte k` is what the `k`-th element of destination memory that the spec
leaves unspecified holds. It has no body, so nothing can be proved of it beyond what holds of every byte. Log 5. -/
opaque freeByte : Nat → BitVec 8

end Sys2Proof.Config
end

