-- ==== Sys2Proof/Word.lean ====
section
/-! DEFINITION. The word types of the block (spec/00_scope.md R7, spec/10_state.md R10). -/

namespace Sys2Proof

/-- One source or destination element, `CHARW` = 8 bits (R7, R34). -/
abbrev Byte := BitVec 8

/-- A length, an index or a result, `LENW` bits (R10, R108). -/
abbrev Word (LENW : Nat := Config.LENW) := BitVec LENW

/-- The accumulator and the group, `ACCW` = 24 bits (R7, R15, R52). -/
abbrev Group := BitVec 24

/-- One symbol value, `SYMW` = 6 bits (R7). -/
abbrev SymVal := BitVec 6

/-- A command word of format `C`, `LENW + 2` bits (R46). -/
abbrev CommandWord (LENW : Nat := Config.LENW) := BitVec (LENW + 2)

end Sys2Proof
end

