-- ==== Sys2Proof/Syntax.lean ====
section
/-! DEFINITION. The instructions: the four commands of spec/30_encoding.md R47, one constructor per row of the opcode
table. The operand is the number of the listing syntax (R59); it fits the command word when `Instr.wf` says so. The
two buffer attachments are not part of a command word (R46): they stand in `Machine.Command`. -/

namespace Sys2Proof

/-- R47: the complete list of commands (R121). -/
inductive Instr where
  /-- `B64ENCLEN len` (R102). -/
  | b64enclen (len : Nat)
  /-- `B64DECLEN len` (R104). -/
  | b64declen (len : Nat)
  /-- `B64ENC src, len, dst` (R70). -/
  | b64enc (len : Nat)
  /-- `B64DEC src, len, dst` (R82). -/
  | b64dec (len : Nat)
deriving DecidableEq, Repr

/-- The length operand `LEN` of a command (R20, R46). -/
def Instr.lenOf : Instr → Nat
  | .b64enclen n => n
  | .b64declen n => n
  | .b64enc n => n
  | .b64dec n => n

end Sys2Proof
end

