-- ==== Sys2Proof/WellFormed.lean ====
section
/-! DEFINITION. Which commands have a command word. R46 gives the operand `LENW` bits and R48 makes every value of
them legal, so the one check is that the number fits. -/

namespace Sys2Proof

/-- The operand fits the `LEN` field of the command word (R46, R48). -/
def Instr.wf (i : Instr) (LENW : Nat := Config.LENW) : Bool :=
  decide (i.lenOf < 2 ^ LENW)

end Sys2Proof
end

