-- ==== Sys2Proof/Decode.lean ====
section
/-! DEFINITION. The command decoder and encoder (spec/30_encoding.md R46 to R48, R58). -/

namespace Sys2Proof

/-- `OP = 00` (R47). -/
abbrev opB64EncLen : BitVec 2 := 0#2

/-- `OP = 01` (R47). -/
abbrev opB64DecLen : BitVec 2 := 1#2

/-- `OP = 10` (R47). -/
abbrev opB64Enc : BitVec 2 := 2#2

/-- `OP = 11` (R47). -/
abbrev opB64Dec : BitVec 2 := 3#2

/-- The `OP` field, bits `[LENW+1:LENW]` of a command word (R46). -/
def opField {w : Nat} (c : CommandWord w) : BitVec 2 := c.extractLsb' w 2

/-- The `LEN` field, bits `[LENW-1:0]` of a command word (R46). -/
def lenField {w : Nat} (c : CommandWord w) : Word w := c.extractLsb' 0 w

/-- Command decode is total: all four values of `OP` are defined and every `LEN` is legal (R48). -/
def decode {w : Nat} (c : CommandWord w) : Instr :=
  let n := (lenField c).toNat
  if opField c = opB64EncLen then .b64enclen n
  else if opField c = opB64DecLen then .b64declen n
  else if opField c = opB64Enc then .b64enc n
  else .b64dec n

/-- The operation code of a command (R47). -/
def opOf : Instr → BitVec 2
  | .b64enclen _ => opB64EncLen
  | .b64declen _ => opB64DecLen
  | .b64enc _ => opB64Enc
  | .b64dec _ => opB64Dec

/-- The command word of a well-formed command: `OP` above `LEN` (R46). -/
def encode (i : Instr) (LENW : Nat := Config.LENW) : CommandWord LENW :=
  BitVec.ofNat (LENW + 2) ((opOf i).toNat * 2 ^ LENW + i.lenOf)

/-- One row of the opcode table: a word is the row's command when the word masked equals `matchBits` (R47). -/
structure OpcodeRow (LENW : Nat := Config.LENW) where
  mnemonic : String
  matchBits : CommandWord LENW
  mask : CommandWord LENW
deriving DecidableEq, Repr

/-- The row of an operation code: the code above `LENW` zeros, and the mask of the `OP` field (R46, R47). At 34 bits
these are the match and mask values that R47 prints. -/
def opcodeRow (mnemonic : String) (op : BitVec 2) (LENW : Nat := Config.LENW) : OpcodeRow LENW where
  mnemonic := mnemonic
  matchBits := BitVec.ofNat (LENW + 2) (op.toNat * 2 ^ LENW)
  mask := BitVec.ofNat (LENW + 2) (3 * 2 ^ LENW)

/-- The four rows of the opcode table (R47). -/
def opcodeRows (LENW : Nat := Config.LENW) : List (OpcodeRow LENW) :=
  [ opcodeRow "B64ENCLEN" opB64EncLen LENW,
    opcodeRow "B64DECLEN" opB64DecLen LENW,
    opcodeRow "B64ENC" opB64Enc LENW,
    opcodeRow "B64DEC" opB64Dec LENW ]

/-- The table's name of a command (R47). -/
def mnemonicOf : Instr → String
  | .b64enclen _ => "B64ENCLEN"
  | .b64declen _ => "B64DECLEN"
  | .b64enc _ => "B64ENC"
  | .b64dec _ => "B64DEC"

/-- Why a number is no command. -/
inductive DecodeError where
  /-- A set bit above the command word's `LENW + 2` bits: there is one command length (R46, R58). -/
  | widerThanCommandWord
deriving DecidableEq, Repr

/-- Decoding a number whose bits are those of a command word, bit 0 least significant (R8): total, refusing by name
what no `LENW + 2`-bit word holds (R46, R58). -/
def decodeNat (c : Nat) (LENW : Nat := Config.LENW) : Except DecodeError Instr :=
  if c < 2 ^ (LENW + 2) then .ok (decode (w := LENW) (BitVec.ofNat (LENW + 2) c))
  else .error .widerThanCommandWord

/-- The command whose bits are the low `nbits` bits of `w`, numbered as the opcode table numbers them. A command is
one word written to a register, not bytes at an address (R12, R34, R46), so no byte order enters. Log 18. -/
def decodeTableWord (nbits w : Nat) : Option Instr :=
  match decodeNat (w % 2 ^ nbits) with
  | .ok i => some i
  | .error _ => none

end Sys2Proof
end

