-- ==== Sys2Proof/Machine/State.lean ====
section
/-! DEFINITION. The state of one instance of the block (spec/10_state.md R10), the buffers it is lent, the host
actions that drive it, and the reasons a step can stop. The tables `ALPHA` and `INV` are constants, not registers
(R13, R14, R26): they stand in `Machine/Alphabet.lean` (log 2). -/

namespace Sys2Proof.Machine

/-- `PHASE` (R21): `IDLE`, `RUN`, `DONE`. -/
inductive Phase where
  /-- No operation has been started since reset. -/
  | idle
  /-- An operation is in progress. -/
  | run
  /-- An operation has ended and its outcome stands in `RESULT` and `STATUS.FAIL`. -/
  | done
deriving DecidableEq, Repr

/-- The two buffer attachments of a command (R46): `SRC` is the `LEN` elements from address `src`, `DST` the `dcap`
elements from address `dst`. The engine addresses both by index from 0 (R30); where they lie is the platform's affair
(R45, D21). Every command carries them; a size estimator reaches neither (R41). Logs 4, 17. -/
structure Buffers where
  src : Nat
  dst : Nat
  dcap : Nat
deriving DecidableEq, Repr

/-- A command as the host issues it (R46): the word and its attachments. -/
structure Command (LENW : Nat := Config.LENW) where
  word : CommandWord LENW
  bufs : Buffers
deriving DecidableEq, Repr

/-- What the host can do to one instance. A list of these in `State.inbox` is a program (spec/95_test_vectors.md
Part 3). Log 6. -/
inductive HostAction (LENW : Nat := Config.LENW) where
  /-- Issue a command and wait for `STATUS.DONE`: the operation as one transition (D6). Log 7. -/
  | call (c : Command LENW)
  /-- Issue a command and do not wait: the start transition (R23); the engine's steps follow. -/
  | start (c : Command LENW)
  /-- Leave the engine to take its next step. -/
  | pass
  /-- Store one element of host memory. -/
  | write (addr : Nat) (v : Byte)
  /-- Load one element of host memory. -/
  | read (addr : Nat)
  /-- Power-on reset (R130). -/
  | reset
deriving DecidableEq, Repr

/-- Host memory. `cells` are the elements that hold a known byte other than 0x00; `unspec` are the elements whose
content the spec leaves unspecified, each with the index of the free value it reads as (R93). Every other element
reads 0x00 (log 4). Both lists rise strictly by address. -/
structure Memory where
  cells : List Host.Cell
  unspec : List (Nat × Nat)
deriving DecidableEq, Repr

/-- The complete state of one instance (R10), with the attachments in use, host memory, the host's pending actions
and the model's own counter of free values. `LENW` is the instance's parameter (R7); `State` alone is the state at its
default. -/
structure State (LENW : Nat := Config.LENW) where
  /-- `OP`, the command register (R20). -/
  op : BitVec 2
  /-- `LEN`, the length operand (R20). -/
  len : Word LENW
  /-- `ACC`, the accumulator (R15). -/
  acc : Group
  /-- `POS`, the position counter (R16). -/
  pos : BitVec 2
  /-- `END`, the end marker (R17). -/
  endMark : BitVec 2
  /-- `SI`, the source index (R18). -/
  si : Word LENW
  /-- `DI`, the destination index (R19). -/
  di : Word LENW
  /-- `PHASE` (R21). -/
  phase : Phase
  /-- `STATUS.FAIL` (R22). -/
  fail : Bool
  /-- `RESULT` (R22). -/
  result : Word LENW
  /-- The attachments of the last command taken (R46). -/
  bufs : Buffers
  /-- The memory the buffers lie in (R30, R31, R32). -/
  mem : Memory
  /-- The model's own: how many free values have been drawn (log 5). -/
  fresh : Nat
  /-- What the host does next, first action first (log 6). -/
  inbox : List (HostAction LENW)
deriving DecidableEq, Repr

/-- The reasons a step stops the machine. -/
inductive Fault where
  /-- R38, R126: a `MemWrite` to `DST` at an index not below `DCAP`. The write is not made and the operation has no
  end state. Raised by `emit`. Safe: it removes runs that the source places outside its contract (D5). -/
  | dstOverrun
  /-- No rule enables a step: `PHASE = RUN` with `SI > LEN` (R73, R75, R85, R91), or the encoder's closing step at
  `POS = 3` (R16, R75). Raised by `encStep`, `encClose` and `decStep`, only in states that no run reaches (log 10).
  Safe. -/
  | noEnabledStep
deriving DecidableEq, Repr

/-- The reasons the model gives a host action no meaning. -/
inductive Refusal where
  /-- An instruction without a meaning. Raised by no arm of this model. -/
  | notModelled (mnemonic : String)
  /-- R138, D16: a command while `PHASE = RUN`. Raised by `beginOp`. Safe. -/
  | busy
  /-- R108, D3, D23: `LEN` or its estimator value is not below `2^(LENW-1)`. Raised by `beginOp`. Safe. -/
  | lengthBound
  /-- R43, D15: `SRC` and `DST` share an element. Raised by `beginOp`. Safe. -/
  | buffersOverlap
  /-- R43, D15, U3, U4: while `PHASE = RUN` the host reads or writes an element of `DST`, or writes one of `SRC`.
  Raised by `deliver`. Safe. -/
  | bufferInUse
deriving DecidableEq, Repr

/-- The result of a step of this machine. -/
abbrev Result (LENW : Nat := Config.LENW) := Host.Outcome (State LENW) Fault Refusal

/-- Power-on reset (R26, R130): `PHASE = IDLE`, `STATUS.FAIL = 0`, `RESULT = 0`, no memory element listed, no host
action pending. The spec leaves `OP`, `LEN` and the working registers unspecified: they are 0 here (DESIGN CHOICE,
log 3); so are the attachments and the counter of free values. -/
def State.resetAt (LENW : Nat) : State LENW where
  op := 0
  len := 0
  acc := 0
  pos := 0
  endMark := 0
  si := 0
  di := 0
  phase := .idle
  fail := false
  result := 0
  bufs := { src := 0, dst := 0, dcap := 0 }
  mem := { cells := [], unspec := [] }
  fresh := 0
  inbox := []

/-- Power-on reset at the default width. -/
def State.reset : State := State.resetAt Config.LENW

end Sys2Proof.Machine
end

