-- ==== Sys2Proof/Machine/Alphabet.lean ====
section
/-! DEFINITION. The Alphabet Table in both directions and the three lookup functions (spec/30_encoding.md R50, R51, R56;
spec/40_alphabet_lookup.md R60 to R62). They are combinational and hold no state (R67). -/

namespace Sys2Proof.Machine

/-- `ALPHA` (R13, R50): entry `v` is the code of symbol `v`, sixteen entries a line. -/
def alphaTable : List Byte :=
  [0x41, 0x42, 0x43, 0x44, 0x45, 0x46, 0x47, 0x48, 0x49, 0x4A, 0x4B, 0x4C, 0x4D, 0x4E, 0x4F, 0x50] ++
  [0x51, 0x52, 0x53, 0x54, 0x55, 0x56, 0x57, 0x58, 0x59, 0x5A, 0x61, 0x62, 0x63, 0x64, 0x65, 0x66] ++
  [0x67, 0x68, 0x69, 0x6A, 0x6B, 0x6C, 0x6D, 0x6E, 0x6F, 0x70, 0x71, 0x72, 0x73, 0x74, 0x75, 0x76] ++
  [0x77, 0x78, 0x79, 0x7A, 0x30, 0x31, 0x32, 0x33, 0x34, 0x35, 0x36, 0x37, 0x38, 0x39, 0x2B, 0x2F]

/-- `INV` (R14, R51): entry `c` is the value of the character with code `c`, `none` for `invalid`; one line of R51's
table a line. -/
def invTable : List (Option SymVal) :=
  [none, none, none, none, none, none, none, none, none, none, none, none, none, none, none, none] ++
  [none, none, none, none, none, none, none, none, none, none, none, none, none, none, none, none] ++
  [none, none, none, none, none, none, none, none, none, none, none, some 62, none, none, none, some 63] ++
  [some 52, some 53, some 54, some 55, some 56, some 57, some 58, some 59, some 60, some 61, none, none, none, none,
    none, none] ++
  [none, some 0, some 1, some 2, some 3, some 4, some 5, some 6, some 7, some 8, some 9, some 10, some 11, some 12,
    some 13, some 14] ++
  [some 15, some 16, some 17, some 18, some 19, some 20, some 21, some 22, some 23, some 24, some 25, none, none, none,
    none, none] ++
  [none, some 26, some 27, some 28, some 29, some 30, some 31, some 32, some 33, some 34, some 35, some 36, some 37,
    some 38, some 39, some 40] ++
  [some 41, some 42, some 43, some 44, some 45, some 46, some 47, some 48, some 49, some 50, some 51, none, none, none,
    none, none]

/-- `SYM(v) = ALPHA[v]` (R60). -/
def sym (v : SymVal) : Byte := alphaTable.getD v.toNat 0#8

/-- `VAL(c)` (R61): the range test `1 <= c <= 126`, then the table; `none` is `invalid`. -/
def val (c : Byte) : Option SymVal :=
  if c.toNat < 1 ∨ 126 < c.toNat then none else invTable.getD c.toNat none

/-- The four character classes (R56). -/
inductive CharClass where
  /-- `WS`: always fatal. -/
  | ws
  /-- `PAD`: legal or fatal by position and `END`. -/
  | pad
  /-- `SYMBOL(v)`: contributes the value `v`. -/
  | symbol (v : SymVal)
  /-- `INVALID`: always fatal. -/
  | invalid
deriving DecidableEq, Repr

/-- `CLASS(c)` (R62), in the source's order of tests: whitespace, then `=`, then the table. -/
def classify (c : Byte) : CharClass :=
  if c = 0x20#8 ∨ c = 0x09#8 ∨ c = 0x0A#8 ∨ c = 0x0D#8 then .ws
  else if c = Config.padCh then .pad
  else match val c with
    | some v => .symbol v
    | none => .invalid

end Sys2Proof.Machine
end

