-- ==== Sys2Proof/Machine/Operands.lean ====
section
/-! DEFINITION. Operand forms: how bytes and symbol values enter and leave the 24-bit group (spec/30_encoding.md R52 to
R55, spec/20_memory.md R35, R36), the unit forms the encoder writes and the bytes a decoder flush writes, and the two
length formulas (spec/43_size_estimators.md R102, R104). -/

namespace Sys2Proof.Machine

/-- Encoder, inbound (R53): `zext_24(byte) << (8 * POS)`. -/
def lane (b : Byte) (pos : BitVec 2) : Group := b.setWidth 24 <<< (8 * pos.toNat)

/-- Encoder, outbound (R53): the field `(a >> sh) & 0x3f`. -/
def field (a : Group) (sh : Nat) : SymVal := ((a >>> sh) &&& 0x3f#24).setWidth 6

/-- Decoder, inbound (R54, R89): `((ACC << 6) + zext_24(v))[23:0]`. -/
def shiftIn (acc : Group) (v : SymVal) : Group := (acc <<< 6) + v.setWidth 24

/-- Decoder, outbound (R54): the byte `(a >> sh) & 0xff`. -/
def groupByte (a : Group) (sh : Nat) : Byte := ((a >>> sh) &&& 0xff#24).setWidth 8

/-- The four characters of a full group, `flush4` (R74). -/
def flush4 (a : Group) : List Byte :=
  [sym (field a 18), sym (field a 12), sym (field a 6), sym (field a 0)]

/-- The unit of one leftover byte, `tail1` (R76): two symbols and two pads. -/
def tail1 (a : Group) : List Byte :=
  [sym (field a 18), sym (field a 12), Config.padCh, Config.padCh]

/-- The unit of two leftover bytes, `tail2` (R77): three symbols and one pad. -/
def tail2 (a : Group) : List Byte :=
  [sym (field a 18), sym (field a 12), sym (field a 6), Config.padCh]

/-- The bytes of a decoder flush, `flushdec(a, e)` (R90): the first always, the second unless `e = 1`, the third only
when `e = 0`. -/
def flushDec (a : Group) (e : BitVec 2) : List Byte :=
  [groupByte a 16] ++ (if e ≠ 1#2 then [groupByte a 8] else []) ++ (if e = 0#2 then [groupByte a 0] else [])

/-- `((LEN + 2) / 3) * 4` over the naturals (R102, C3): the number of characters `B64ENC` writes. -/
def encodedLength (n : Nat) : Nat := (n + 2) / 3 * 4

/-- `(LEN * 3) / 4` over the naturals (R104): an upper bound of the number of bytes `B64DEC` writes. -/
def decodedLength (n : Nat) : Nat := n * 3 / 4

/-- The estimator value that goes with an operation code (R108). -/
def estimate (op : BitVec 2) (n : Nat) : Nat :=
  if op = opB64EncLen ∨ op = opB64Enc then encodedLength n else decodedLength n

/-- Whether an operation code is that of a transform, which reaches the buffers (R30, R41). -/
def isTransform (op : BitVec 2) : Bool := op = opB64Enc || op = opB64Dec

end Sys2Proof.Machine
end

