-- ==== Sys2Proof/Machine/Flags.lean ====
section
/-! DEFINITION. Flag computations: the end marker `END` and the character checks that set it (spec/42_decoder.md R85 to
R88), the status bits (spec/10_state.md R21, R22). -/

namespace Sys2Proof.Machine

/-- The four failure causes, numbered 1 to 4 in the source's order (R111 to R115). They are ghost data of the failure
exit: the block has no cause register. Log 21. -/
inductive FailCause where
  | whitespaceInInput
  | unexpectedPadCharacter
  | invalidSymbol
  | truncatedInput
deriving DecidableEq, Repr

/-- The pad rule (R87): what `END` becomes when a `=` arrives, `none` where the pad is misplaced. With `END` set a pad
is accepted at every position and `END` keeps its value (D12, log 16). -/
def padMark (pos endMark : BitVec 2) : Option (BitVec 2) :=
  if endMark = 0#2 then
    if pos = 2#2 then some 1#2
    else if pos = 3#2 then some 2#2
    else none
  else some endMark

/-- The checks of one character (R85): its value and the `END` it leaves, or the cause that ends the operation. A
non-`=` character is always validated and always contributes its own value (R88, D11, log 16). -/
def checkChar (c : Byte) (pos endMark : BitVec 2) : Except FailCause (SymVal × BitVec 2) :=
  match classify c with
  | .ws => .error .whitespaceInInput
  | .pad =>
    match padMark pos endMark with
    | some e => .ok (0#6, e)
    | none => .error .unexpectedPadCharacter
  | .symbol v => .ok (v, endMark)
  | .invalid => .error .invalidSymbol

/-- `STATUS.BUSY = (PHASE = RUN)` (R21). -/
def State.busy {w : Nat} (s : State w) : Bool := s.phase = .run

/-- `STATUS.DONE = (PHASE = DONE)` (R21). -/
def State.isDone {w : Nat} (s : State w) : Bool := s.phase = .done

/-- What the host may read of an operation's outcome (R137): `RESULT` and `STATUS.FAIL`, only when
`STATUS.DONE = 1`. -/
def State.hostResult {w : Nat} (s : State w) : Option (Word w × Bool) :=
  if s.isDone then some (s.result, s.fail) else none

end Sys2Proof.Machine
end

