-- ==== Sys2Proof/Machine/Memory.lean ====
section
/-! DEFINITION. Named operations over host memory: the primitives `MemRead` and `MemWrite` of spec/00_scope.md R9 at
an address, runs of elements, and leaving elements unspecified (R93). -/

namespace Sys2Proof.Machine

/-- The value listed for address `a`. -/
def listGet {α : Type} (a : Nat) : List (Nat × α) → Option α
  | [] => none
  | (k, v) :: t => if k = a then some v else listGet a t

/-- List `v` for address `a`, keeping the addresses rising and each at most once. -/
def listPut {α : Type} (a : Nat) (v : α) : List (Nat × α) → List (Nat × α)
  | [] => [(a, v)]
  | (k, w) :: t =>
    if a < k then (a, v) :: (k, w) :: t
    else if a = k then (a, v) :: t
    else (k, w) :: listPut a v t

/-- List nothing for address `a`. -/
def listDrop {α : Type} (a : Nat) : List (Nat × α) → List (Nat × α)
  | [] => []
  | (k, w) :: t => if k = a then listDrop a t else (k, w) :: listDrop a t

/-- `MemRead` at an address (R9, R31): a read has no side effect. An element left unspecified reads as its free value;
an element that nothing has written reads 0x00 (log 4). -/
def Memory.read (m : Memory) (a : Nat) : Byte :=
  match listGet a m.unspec with
  | some k => Config.freeByte k
  | none => (listGet a m.cells).getD 0#8

/-- `MemWrite` at an address (R9). Writing 0x00 removes the entry, so that equal memories are equal data. -/
def Memory.write (m : Memory) (a : Nat) (v : Byte) : Memory where
  cells := if v = 0#8 then listDrop a m.cells else listPut a v m.cells
  unspec := listDrop a m.unspec

/-- Leave the element at `a` unspecified, reading as the free value number `k` (R93). -/
def Memory.forget (m : Memory) (a k : Nat) : Memory where
  cells := listDrop a m.cells
  unspec := listPut a k m.unspec

/-- The `n` elements from address `a` on, lowest first (R31). -/
def Memory.readBytes (m : Memory) (a : Nat) : Nat → List Byte
  | 0 => []
  | n + 1 => m.read a :: m.readBytes (a + 1) n

/-- Write consecutive elements from address `a` on, lowest first (R32). -/
def Memory.writeBytes (m : Memory) (a : Nat) : List Byte → Memory
  | [] => m
  | b :: bs => (m.write a b).writeBytes (a + 1) bs

/-- Leave the `n` elements from address `a` on unspecified, reading as the free values from number `k` on (R93). -/
def Memory.forgetBytes (m : Memory) (a k : Nat) : Nat → Memory
  | 0 => m
  | n + 1 => (m.forget a k).forgetBytes (a + 1) (k + 1) n

/-- The canonical form: addresses strictly rising, no listed byte equal to what an unlisted element reads as, and no
element both known and unspecified. -/
abbrev Memory.wf (m : Memory) : Prop :=
  m.cells.Pairwise (fun p q => p.1 < q.1) ∧ m.unspec.Pairwise (fun p q => p.1 < q.1) ∧
    (∀ p ∈ m.cells, p.2 ≠ 0#8) ∧ (∀ p ∈ m.cells, ∀ q ∈ m.unspec, p.1 ≠ q.1)

end Sys2Proof.Machine
end

