-- ==== Sys2Proof/Machine/Ops.lean ====
section
/-! DEFINITION. The operations every meaning shares: reading the source, writing the destination, starting an operation
(spec/10_state.md R23), ending one (R22) and the failure exit (spec/60_exceptions.md R116). -/

namespace Sys2Proof.Machine

/-- Go on with `f` where `o` is a next state; a fault or a refusal stands. -/
def andThen {w : Nat} (o : Result w) (f : State w → Result w) : Result w :=
  match o with
  | .next s => f s
  | .fault r => .fault r
  | .refused r => .refused r

/-- `MemRead(SRC + SI, 1)` (R9, R31). -/
def readSrc {w : Nat} (s : State w) : Byte := s.mem.read (s.bufs.src + s.si.toNat)

/-- `MemWrite(DST + DI, 1, v); DI <- DI + 1` (R9, R32), the only way the engine writes memory. At or beyond `DCAP` the
write is not made and the operation stops (R38, R126). -/
def emit {w : Nat} (v : Byte) (s : State w) : Result w :=
  if s.di.toNat < s.bufs.dcap then
    .next { s with mem := s.mem.write (s.bufs.dst + s.di.toNat) v, di := s.di + 1 }
  else .fault .dstOverrun

/-- The writes of one flush, in ascending index order within one step (R74, R76, R77, R90). -/
def emitAll {w : Nat} : List Byte → State w → Result w
  | [], s => .next s
  | v :: vs, s => andThen (emit v s) (emitAll vs)

/-- R43, D15: some element lies in both `SRC[0..n)` and `DST[0..DCAP)`. -/
def Buffers.overlap (b : Buffers) (n : Nat) : Bool :=
  decide (0 < n ∧ 0 < b.dcap ∧ b.src < b.dst + b.dcap ∧ b.dst < b.src + n)

/-- R108: `LEN` and its estimator value are both below `2^(LENW-1)`. -/
def admitted (LENW : Nat) (op : BitVec 2) (n : Nat) : Bool :=
  decide (n < 2 ^ (LENW - 1) ∧ estimate op n < 2 ^ (LENW - 1))

/-- Why a command is given no meaning (R126), if it is. The order of the tests is the model's (log 12). -/
def startRefusal {w : Nat} (op : BitVec 2) (n : Nat) (s : State w) : Option Refusal :=
  if s.busy then some .busy
  else if !admitted w op n then some .lengthBound
  else if isTransform op && s.bufs.overlap n then some .buffersOverlap
  else none

/-- The initial position counter (R23): 2 for `B64ENC`, 0 for `B64DEC`; the size estimators do not use `POS` and leave
it (R109, log 8). -/
def initialPos (op pos : BitVec 2) : BitVec 2 :=
  if op = opB64Enc then 2#2 else if op = opB64Dec then 0#2 else pos

/-- The start transition (R20, R23): the host's `OP` and `LEN`, and every working register as R23 says. `RESULT` and
`STATUS.FAIL` keep their values. -/
def startTransition {w : Nat} (op : BitVec 2) (n : Nat) (s : State w) : State w :=
  { s with
    op := op
    len := BitVec.ofNat w n
    phase := .run
    acc := 0#24
    pos := initialPos op s.pos
    endMark := 0#2
    si := 0#w
    di := 0#w }

/-- Start an operation: refuse it (R126) or make the start transition (R23). -/
def beginOp {w : Nat} (op : BitVec 2) (n : Nat) (s : State w) : Result w :=
  match startRefusal op n s with
  | some r => .refused r
  | none => .next (startTransition op n s)

/-- `done(n)` (R22): `RESULT <- n; STATUS.FAIL <- 0; PHASE <- DONE`. -/
def takeDone {w : Nat} (n : Word w) (s : State w) : State w :=
  { s with result := n, fail := false, phase := .done }

/-- `DST[0..DCAP)` is left unspecified: every element holds any value (R93, D14, U1, U10; log 5). -/
def loseDst {w : Nat} (s : State w) : State w :=
  { s with mem := s.mem.forgetBytes s.bufs.dst s.fresh s.bufs.dcap, fresh := s.fresh + s.bufs.dcap }

/-- `fail <Cause>` (R116), the block's one exception: `RESULT <- FAILVAL; STATUS.FAIL <- 1; PHASE <- DONE`, no other
register changed, nothing saved, the cause recorded nowhere (R115), `DST` unspecified afterwards (R93). There is no
handler and no return from it (R119): the next start clears the working registers (R23). -/
def takeFail {w : Nat} (_cause : FailCause) (s : State w) : State w :=
  loseDst { s with result := Config.failVal, fail := true, phase := .done }

/-- Repeat the engine's step `f` until `PHASE` leaves `RUN`, at most `k` times (R72, R84, R142). -/
def runToDone {w : Nat} (f : State w → Result w) : Nat → State w → Result w
  | 0, s => .next s
  | k + 1, s => if s.phase = .run then andThen (f s) (runToDone f k) else .next s

/-- Power-on reset of a machine that has run (R26, R130): registers as in `State.resetAt`; buffers not touched, but a
reset during `PHASE = RUN` abandons the operation and leaves `DST[0..DCAP)` unspecified (U10). The host's memory and
pending actions are not the block's. Log 15. -/
def powerReset {w : Nat} (s : State w) : State w :=
  let t := if s.phase = .run then loseDst s else s
  { State.resetAt w with bufs := t.bufs, mem := t.mem, fresh := t.fresh, inbox := t.inbox }

end Sys2Proof.Machine
end

