-- ==== Sys2Proof/Machine/Decoder.lean ====
section
/-! DEFINITION. The decoder `B64DEC`, step by step (spec/42_decoder.md R82 to R93). -/

namespace Sys2Proof.Machine

/-- The character step (R85): the checks, then the value enters the group (R89); the fourth character of a unit
flushes it with `END` as just updated (R90). A step that fails changes nothing else (R116). -/
def decChar {w : Nat} (s : State w) : Result w :=
  match checkChar (readSrc s) s.pos s.endMark with
  | .error cause => .next (takeFail cause s)
  | .ok (v, e) =>
    let acc1 := shiftIn s.acc v
    let s1 := { s with si := s.si + 1, endMark := e }
    if s.pos ≠ 3#2 then .next { s1 with acc := acc1, pos := s.pos + 1#2 }
    else andThen (emitAll (flushDec acc1 e) s1) fun t => .next { t with acc := 0#24, pos := 0#2 }

/-- The closing step (R91, R92): input that ends inside a unit is truncated. -/
def decClose {w : Nat} (s : State w) : Result w :=
  if s.pos ≠ 0#2 then .next (takeFail .truncatedInput s)
  else .next (takeDone s.di s)

/-- One engine step of `B64DEC`: the character step while `SI < LEN`, the closing step at `SI = LEN` (R84). -/
def decStep {w : Nat} (s : State w) : Result w :=
  if s.si < s.len then decChar s
  else if s.si = s.len then decClose s
  else .fault .noEnabledStep

/-- `B64DEC src, len, dst` (R82): the start transition and the operation's steps, at most `LEN + 1` (R84), as the one
transition the host observes (D6, log 7). -/
def execB64Dec {w : Nat} (n : Nat) (s : State w) : Result w :=
  andThen (beginOp opB64Dec n s) (runToDone decStep (n + 1))

end Sys2Proof.Machine
end

