-- ==== Sys2Proof/Machine/Encoder.lean ====
section
/-! DEFINITION. The encoder `B64ENC`, step by step (spec/41_encoder.md R70 to R78). -/

namespace Sys2Proof.Machine

/-- The byte step (R73): the byte enters its lane; the third byte of a group flushes it (R74). -/
def encByte {w : Nat} (s : State w) : Result w :=
  let acc1 := s.acc ||| lane (readSrc s) s.pos
  let s1 := { s with si := s.si + 1 }
  if s.pos ≠ 0#2 then .next { s1 with acc := acc1, pos := s.pos - 1#2 }
  else andThen (emitAll (flush4 acc1) s1) fun t => .next { t with acc := 0#24, pos := 2#2 }

/-- The closing step (R75): the tail of a partial group (R76, R77), then `done(DI)` (R78). -/
def encClose {w : Nat} (s : State w) : Result w :=
  if s.pos = 2#2 then .next (takeDone s.di s)
  else if s.pos = 1#2 then andThen (emitAll (tail1 s.acc) s) fun t => .next (takeDone t.di t)
  else if s.pos = 0#2 then andThen (emitAll (tail2 s.acc) s) fun t => .next (takeDone t.di t)
  else .fault .noEnabledStep

/-- One engine step of `B64ENC`: the byte step while `SI < LEN`, the closing step at `SI = LEN` (R72). -/
def encStep {w : Nat} (s : State w) : Result w :=
  if s.si < s.len then encByte s
  else if s.si = s.len then encClose s
  else .fault .noEnabledStep

/-- `B64ENC src, len, dst` (R70): the start transition and the `LEN + 1` steps of the operation (R72), as the one
transition the host observes (D6, log 7). -/
def execB64Enc {w : Nat} (n : Nat) (s : State w) : Result w :=
  andThen (beginOp opB64Enc n s) (runToDone encStep (n + 1))

end Sys2Proof.Machine
end

