-- ==== Sys2Proof/Machine/Estimators.lean ====
section
/-! DEFINITION. The size estimators `B64ENCLEN` and `B64DECLEN` (spec/43_size_estimators.md R102 to R109). -/

namespace Sys2Proof.Machine

/-- The `RESULT` write of R102: `((LEN + 2) / 3) * 4`, formed without wrap (R108). -/
def encLenStep {w : Nat} (s : State w) : Result w :=
  .next (takeDone (BitVec.ofNat w (encodedLength s.len.toNat)) s)

/-- The `RESULT` write of R104: `(LEN * 3) / 4`, the product at full precision (R108). -/
def decLenStep {w : Nat} (s : State w) : Result w :=
  .next (takeDone (BitVec.ofNat w (decodedLength s.len.toNat)) s)

/-- `B64ENCLEN len` (R102, R109): the start transition followed at once by the `RESULT` write. -/
def execB64EncLen {w : Nat} (n : Nat) (s : State w) : Result w :=
  andThen (beginOp opB64EncLen n s) encLenStep

/-- `B64DECLEN len` (R104, R109): the start transition followed at once by the `RESULT` write. -/
def execB64DecLen {w : Nat} (n : Nat) (s : State w) : Result w :=
  andThen (beginOp opB64DecLen n s) decLenStep

end Sys2Proof.Machine
end

