-- ==== Sys2Proof/Machine/Dispatch.lean ====
section
/-! DEFINITION. The meaning of each command (spec/30_encoding.md R47). -/

namespace Sys2Proof.Machine
open Host

def exec (i : Instr) (s : State) : Host.Outcome State Fault Refusal :=
  match i with
  | .b64enclen len => Sys2Proof.Machine.execB64EncLen len s
  | .b64declen len => Sys2Proof.Machine.execB64DecLen len s
  | .b64enc len => Sys2Proof.Machine.execB64Enc len s
  | .b64dec len => Sys2Proof.Machine.execB64Dec len s

end Sys2Proof.Machine
end

