-- ==== Sys2Proof/Machine/HostPort.lean ====
section
/-! DEFINITION. The engine's own step and what each host action does (spec/10_state.md R20 to R22, spec/20_memory.md R43,
spec/70_reset_and_hazards.md R130 to R141). -/

namespace Sys2Proof.Machine

/-- The step the engine takes by itself (R21): none outside `PHASE = RUN`, where the block waits for a command (R130);
inside it, the step of the operation that `OP` selects (R47). The estimators never show `PHASE = RUN` between steps
(R109, log 9). -/
def engineStep {w : Nat} (s : State w) : Result w :=
  if s.phase = .run then
    if s.op = opB64EncLen then encLenStep s
    else if s.op = opB64DecLen then decLenStep s
    else if s.op = opB64Enc then encStep s
    else decStep s
  else .next s

/-- Executing a command on an instance of any width (R7): the meanings that `exec` gives at the default width. -/
def execAt {w : Nat} (i : Instr) (s : State w) : Result w :=
  match i with
  | .b64enclen n => execB64EncLen n s
  | .b64declen n => execB64DecLen n s
  | .b64enc n => execB64Enc n s
  | .b64dec n => execB64Dec n s

/-- A start without waiting: the start transition alone for a transform (R72, R84), the whole operation for a size
estimator, which takes one step (R109). -/
def startOnly {w : Nat} (i : Instr) (s : State w) : Result w :=
  match i with
  | .b64enclen n => execB64EncLen n s
  | .b64declen n => execB64DecLen n s
  | .b64enc n => beginOp opB64Enc n s
  | .b64dec n => beginOp opB64Dec n s

/-- Take the buffer attachments of a command (R46). An operation in progress keeps its own: the command that arrives
then is refused (R138). -/
def attach {w : Nat} (b : Buffers) (s : State w) : State w := { s with bufs := b }

/-- `a` is the address of an element of `SRC[0..LEN)` of the operation at hand (R31). -/
def State.inSrc {w : Nat} (s : State w) (a : Nat) : Bool :=
  decide (s.bufs.src ≤ a ∧ a < s.bufs.src + s.len.toNat)

/-- `a` is the address of an element of `DST[0..DCAP)` of the operation at hand (R32). -/
def State.inDst {w : Nat} (s : State w) (a : Nat) : Bool :=
  decide (s.bufs.dst ≤ a ∧ a < s.bufs.dst + s.bufs.dcap)

/-- One host action (log 6). While `PHASE = RUN` an access to `DST`, or a write to `SRC`, has no meaning (R43, log
14). -/
def deliver {w : Nat} (h : HostAction w) (s : State w) : Result w :=
  match h with
  | .call c => execAt (decode c.word) (attach c.bufs s)
  | .start c => startOnly (decode c.word) (attach c.bufs s)
  | .pass => engineStep s
  | .write a v =>
    if s.busy && (s.inDst a || s.inSrc a) then .refused .bufferInUse
    else .next { s with mem := s.mem.write a v }
  | .read a => if s.busy && s.inDst a then .refused .bufferInUse else .next s
  | .reset => .next (powerReset s)

/-- The command a table word stands for, with attachments that meet the host's duties (R134, R136): `SRC` from address
0 on, `DST` right after it, `DCAP` the estimator's value. -/
def tableCommand (c : Nat) : Command :=
  let cw : CommandWord := BitVec.ofNat (Config.LENW + 2) c
  { word := cw
    bufs :=
      { src := 0
        dst := (lenField cw).toNat
        dcap := estimate (opField cw) (lenField cw).toNat } }

end Sys2Proof.Machine
end

