-- ==== Sys2Proof/Machine/Step.lean ====
section
/-! DEFINITION. One step of the machine: the host's next action, or the engine's own step where the host does nothing
(spec/10_state.md R12, R21). -/

namespace Sys2Proof.Machine

/-- One step of an instance of any width (R7). A command that the host issues is decoded and executed (R46); with no
action pending the engine goes on by itself (R141). -/
def stepAt {w : Nat} (s : State w) : Result w :=
  match s.inbox with
  | [] => engineStep s
  | h :: rest => deliver h { s with inbox := rest }

/-- One step at the default width. -/
def step (s : State) : Host.Outcome State Fault Refusal := stepAt s

/-- `s` with the table's word issued as the host's next command, so that the next step runs exactly it (log 18). A
number that is no command word (R46) changes nothing. -/
def State.withFetchWord (s : State) (nbits w : Nat) : State :=
  match decodeTableWord nbits w with
  | some _ => { s with inbox := .call (tableCommand (w % 2 ^ nbits)) :: s.inbox }
  | none => s

end Sys2Proof.Machine
end

