-- ==== Sys2Proof/Machine/Observed.lean ====
section
/-! DEFINITION. The functions the host observes, in closed form and independent of the step machines: `ENC`
(spec/41_encoder.md R79) and `DEC` (spec/42_decoder.md R94). No meaning uses them; claims compare the two layers. -/

namespace Sys2Proof.Machine

/-- `U3(x, y, z)` (R79, R52): the four characters of a unit of three bytes. -/
def unit3 (x y z : Byte) : List Byte :=
  [sym (x.extractLsb' 2 6), sym (x.extractLsb' 0 2 ++ y.extractLsb' 4 4), sym (y.extractLsb' 0 4 ++ z.extractLsb' 6 2),
    sym (z.extractLsb' 0 6)]

/-- `TAIL` for `r = 2` (R79): three symbols and one pad. -/
def unit2 (x y : Byte) : List Byte :=
  [sym (x.extractLsb' 2 6), sym (x.extractLsb' 0 2 ++ y.extractLsb' 4 4), sym (y.extractLsb' 0 4 ++ 0#2), Config.padCh]

/-- `TAIL` for `r = 1` (R79): two symbols and two pads. -/
def unit1 (x : Byte) : List Byte :=
  [sym (x.extractLsb' 2 6), sym (x.extractLsb' 0 2 ++ 0#4), Config.padCh, Config.padCh]

/-- `ENC` (R79): a unit for every three bytes, then the tail. -/
def encText : List Byte → List Byte
  | x :: y :: z :: t => unit3 x y z ++ encText t
  | [x, y] => unit2 x y
  | [x] => unit1 x
  | [] => []

/-- The index of the first `=` of a text, if any (R94). -/
def firstPad (t : List Byte) : Option Nat := t.findIdx? fun c => classify c == .pad

/-- The character at index `i` of a text is one of R94's three offenders: (a) whitespace, (b) invalid, (c) the first
`=`, at unit position 0 or 1. -/
def offends (t : List Byte) (i : Nat) : Bool :=
  match classify (t.getD i 0#8) with
  | .ws => true
  | .invalid => true
  | .pad => firstPad t == some i && decide (i % 4 < 2)
  | .symbol _ => false

/-- `i0` of R94: the least index of an offender, if any. -/
def firstOffender (t : List Byte) : Option Nat := (List.range t.length).find? (offends t)

/-- `val(c)` of R94: 0 for `=`, the table value of a symbol. -/
def charValue (c : Byte) : SymVal :=
  match classify c with
  | .symbol v => v
  | _ => 0#6

/-- `G(u)` of R94: the 24-bit group of unit `u`, the first character's value highest (R36). -/
def unitGroup (t : List Byte) (u : Nat) : Group :=
  charValue (t.getD (4 * u) 0#8) ++ charValue (t.getD (4 * u + 1) 0#8) ++ charValue (t.getD (4 * u + 2) 0#8) ++
    charValue (t.getD (4 * u + 3) 0#8)

/-- `e` of R94, from the index of the first `=`. -/
def padBytes (p : Nat) : Nat := if p % 4 = 2 then 1 else 2

/-- `n(u)` of R94: how many bytes unit `u` yields. -/
def unitBytes (t : List Byte) (u : Nat) : Nat :=
  match firstPad t with
  | none => 3
  | some p => if u < p / 4 then 3 else padBytes p

/-- The three bytes of a group, most significant first (R35, R52). -/
def groupBytes (g : Group) : List Byte := [g.extractLsb' 16 8, g.extractLsb' 8 8, g.extractLsb' 0 8]

/-- `DEC` (R94): `none` is `fail`, `some y` is `ok(y)`. -/
def decText (t : List Byte) : Option (List Byte) :=
  if firstOffender t = none ∧ t.length % 4 = 0 then
    some ((List.range (t.length / 4)).flatMap fun u => (groupBytes (unitGroup t u)).take (unitBytes t u))
  else none

/-- The cause of a failing text and the number of characters processed before it (R111 to R115, R117): the first
offender decides, and truncation is found only when every character passed. -/
def failCause (t : List Byte) : Option (FailCause × Nat) :=
  match firstOffender t with
  | some i =>
    match classify (t.getD i 0#8) with
    | .ws => some (.whitespaceInInput, i)
    | .pad => some (.unexpectedPadCharacter, i)
    | _ => some (.invalidSymbol, i)
  | none => if t.length % 4 = 0 then none else some (.truncatedInput, t.length)

end Sys2Proof.Machine
end

