-- ==== Sys2Proof/Safety.lean ====
section
/-! DEFINITION. The terms claims are stated in: the host's duties (spec/70_reset_and_hazards.md R134 to R138), the
invariant of the machine, and what an operation reads and writes. -/

namespace Sys2Proof.Machine

/-- The conditions under which a command is given a meaning (R126): the block is not busy (R138), the length is within
the bound (R108), and for a transform the buffers are disjoint (R43). -/
def CanStart {w : Nat} (op : BitVec 2) (n : Nat) (s : State w) : Prop :=
  s.phase ≠ .run ∧ n < 2 ^ (w - 1) ∧ estimate op n < 2 ^ (w - 1) ∧
    (isTransform op = true → s.bufs.overlap n = false)

/-- The capacity duty (R134): `DCAP` is at least the estimator's value. -/
def CapacityMet {w : Nat} (op : BitVec 2) (n : Nat) (s : State w) : Prop :=
  estimate op n ≤ s.bufs.dcap

/-- `SRC[0..n)` as the command finds it (R31). -/
def sourceOf {w : Nat} (s : State w) (n : Nat) : List Byte :=
  s.mem.readBytes s.bufs.src n

/-- `a` lies outside `DST[0..k)`. -/
def OutsideDst {w : Nat} (s : State w) (k a : Nat) : Prop :=
  a < s.bufs.dst ∨ s.bufs.dst + k ≤ a

/-- What holds while an operation is in progress: R12 (`SI <= LEN`), R108 (the admitted lengths), R43 (disjoint
buffers) and, for each transform, the values that R15 to R19 and R99 give its working registers. -/
def RunInv {w : Nat} (s : State w) : Prop :=
  isTransform s.op = true ∧ s.len.toNat < 2 ^ (w - 1) ∧
    estimate s.op s.len.toNat < 2 ^ (w - 1) ∧ s.bufs.overlap s.len.toNat = false ∧
    s.si.toNat ≤ s.len.toNat ∧
    (s.op = opB64Enc →
      s.endMark = 0#2 ∧ s.pos.toNat + s.si.toNat % 3 = 2 ∧ s.di.toNat = 4 * (s.si.toNat / 3) ∧
        s.acc.toNat % 2 ^ (8 * (s.pos.toNat + 1)) = 0) ∧
    (s.op = opB64Dec →
      s.endMark ≠ 3#2 ∧ s.pos.toNat = s.si.toNat % 4 ∧ s.acc.toNat < 2 ^ (6 * s.pos.toNat) ∧
        s.di.toNat ≤ 3 * (s.si.toNat / 4) ∧ (s.endMark = 0#2 → s.di.toNat = 3 * (s.si.toNat / 4)))

/-- The invariant of the machine: a length has at least one bit (R7), memory keeps its canonical form, `STATUS.FAIL` and
`RESULT = FAILVAL` agree (R22), a successful result never reads as negative (R9), nothing has ended while
`PHASE = IDLE` (R21, R26), and an operation in progress is as `RunInv` says. -/
def Invariant {w : Nat} (s : State w) : Prop :=
  0 < w ∧ s.mem.wf ∧ (s.fail = true ↔ s.result = Config.failVal) ∧
    (s.fail = false → s.result.toNat < 2 ^ (w - 1)) ∧
    (s.phase = .idle → s.fail = false ∧ s.result = 0) ∧ (s.phase = .run → RunInv s)

/-- The same instance over another memory: instances share nothing but memory (R124). -/
def State.withMem {w : Nat} (s : State w) (m : Memory) : State w := { s with mem := m }

/-- Two instances' buffers are disjoint as R43 asks: neither destination meets a buffer of the other. -/
def DisjointBuffers {w v : Nat} (s : State w) (t : State v) : Prop :=
  (∀ a, s.inDst a = true → t.inDst a = false ∧ t.inSrc a = false) ∧ ∀ a, t.inDst a = true → s.inSrc a = false

/-- The failure exit taken from `s` (R116, R93): `RESULT`, `STATUS.FAIL` and `PHASE` written, every other register as it
was, memory outside `DST[0..DCAP)` as it was, and each element inside a free value of its own. -/
def FailedFrom {w : Nat} (s t : State w) : Prop :=
  t = { s with result := Config.failVal, fail := true, phase := .done, mem := t.mem, fresh := t.fresh } ∧
    t.fresh = s.fresh + s.bufs.dcap ∧
    (∀ a, OutsideDst s s.bufs.dcap a → t.mem.read a = s.mem.read a) ∧
    ∀ k, k < s.bufs.dcap → t.mem.read (s.bufs.dst + k) = Config.freeByte (s.fresh + k)

/-- A size estimator with code `op` and operand `n` has taken `s` to `t` with the value `v` (R102, R104, R109): the
start transition's registers, the `RESULT` write, and nothing else; the rules give no value to `POS`. -/
def EstimatorOutcome {w : Nat} (op : BitVec 2) (n v : Nat) (s t : State w) : Prop :=
  t = { s with
    op := op, len := BitVec.ofNat w n, acc := 0#24, pos := t.pos, endMark := 0#2, si := 0#w, di := 0#w,
    phase := .done, fail := false, result := BitVec.ofNat w v } ∧
    t.result.toNat = v

/-- `B64ENC` of `n` bytes has taken `s` to `t` (R70, R79, R80): `DST[0..RESULT)` is `ENC` of the source, `RESULT` is
`B64ENCLEN(n)`, `STATUS.FAIL` is 0, and nothing but the working registers and those elements has changed. -/
def EncoderOutcome {w : Nat} (n : Nat) (s t : State w) : Prop :=
  t = { s with
    op := 2#2, len := BitVec.ofNat w n, acc := t.acc, pos := t.pos, endMark := 0#2, si := BitVec.ofNat w n,
    di := BitVec.ofNat w (encodedLength n), phase := .done, fail := false,
    result := BitVec.ofNat w (encodedLength n), mem := s.mem.writeBytes s.bufs.dst (encText (sourceOf s n)) } ∧
    t.result.toNat = encodedLength n ∧ t.pos.toNat = 2 - n % 3 ∧ (encText (sourceOf s n)).length = encodedLength n

/-- `B64DEC` of `n` characters has taken `s` to `t` with the bytes `y` (R92): `DST[0..RESULT)` is `y`, `RESULT` is its
length, `STATUS.FAIL` is 0, `END` is what the first `=` of the source established, and nothing but the working registers
and those elements has changed. -/
def DecoderOutcome {w : Nat} (n : Nat) (y : List Byte) (s t : State w) : Prop :=
  t = { s with
    op := 3#2, len := BitVec.ofNat w n, acc := 0#24, pos := 0#2, endMark := t.endMark, si := BitVec.ofNat w n,
    di := BitVec.ofNat w y.length, phase := .done, fail := false, result := BitVec.ofNat w y.length,
    mem := s.mem.writeBytes s.bufs.dst y } ∧
    t.result.toNat = y.length ∧
    t.endMark = (match firstPad (sourceOf s n) with
      | none => 0#2
      | some p => if p % 4 = 2 then 1#2 else 2#2)

/-- `B64DEC` of `n` characters has taken `s` to `t` by the failure exit at index `i` (R93, R116): the outcome registers,
`SI` at the offender, memory outside `DST[0..DCAP)` as it was, each element inside a free value of its own. -/
def DecoderFailure {w : Nat} (n i : Nat) (s t : State w) : Prop :=
  t = { s with
    op := 3#2, len := BitVec.ofNat w n, acc := t.acc, pos := t.pos, endMark := t.endMark, si := BitVec.ofNat w i,
    di := t.di, phase := .done, fail := true, result := Config.failVal, mem := t.mem,
    fresh := s.fresh + s.bufs.dcap } ∧
    (∀ a, OutsideDst s s.bufs.dcap a → t.mem.read a = s.mem.read a) ∧
    ∀ k, k < s.bufs.dcap → t.mem.read (s.bufs.dst + k) = Config.freeByte (s.fresh + k)

/-- An operation with code `op` is in progress and the host does nothing. -/
def Running {w : Nat} (op : BitVec 2) (s : State w) : Prop :=
  s.phase = .run ∧ s.op = op ∧ s.inbox = []

/-- The character `SRC[SI]` is accepted with the value `v` and leaves the end marker at `e` (R85, R87, R88). -/
def CharAccepted {w : Nat} (s : State w) (v : SymVal) (e : BitVec 2) : Prop :=
  (classify (s.mem.read (s.bufs.src + s.si.toNat)) = .symbol v ∧ e = s.endMark) ∨
    (classify (s.mem.read (s.bufs.src + s.si.toNat)) = .pad ∧ v = 0#6 ∧
      ((s.endMark = 0#2 ∧ s.pos = 2#2 ∧ e = 1#2) ∨ (s.endMark = 0#2 ∧ s.pos = 3#2 ∧ e = 2#2) ∨
        (s.endMark ≠ 0#2 ∧ e = s.endMark)))

/-- The character `SRC[SI]` fails a check (R111, R112, R113): whitespace, a misplaced pad, or an invalid symbol. -/
def CharRejected {w : Nat} (s : State w) : Prop :=
  classify (s.mem.read (s.bufs.src + s.si.toNat)) = .ws ∨
    (classify (s.mem.read (s.bufs.src + s.si.toNat)) = .pad ∧ s.endMark = 0#2 ∧ (s.pos = 0#2 ∨ s.pos = 1#2)) ∨
    classify (s.mem.read (s.bufs.src + s.si.toNat)) = .invalid

/-- The bytes that the units completed within the first `i` characters of a text yield (R90, R94). -/
def bytesBefore (t : List Byte) (i : Nat) : Nat := ((List.range (i / 4)).map (unitBytes t)).sum

/-- `k` steps of the machine; at the default width this is `Host.Core.run` of `Sys2Proof.core`. -/
def runSteps {w : Nat} : Nat → State w → Result w
  | 0, s => .next s
  | k + 1, s => andThen (stepAt s) (runSteps k)

end Sys2Proof.Machine
end

