-- ==== Sys2Proof/Certificates/Slice0/Obligations.lean ====
section
/-! DEFINITION. The statements for the provers, each with the rules of the spec it formalises. -/

open Sys2Proof Sys2Proof.Machine

/-! ### Command words -/

/-- R46, R47: at every width, encoding a well-formed command and decoding the word gives the command back, whatever its
operand. -/
def Obligations.DecodeInvertsEncode : Prop :=
  ∀ (w : Nat) (i : Instr), i.wf w = true → decode (encode i w) = i

/-- R46, R48: at every width, every command word is the encoding of the well-formed command it decodes to, so no bit of
a word is dropped and no word is reserved. -/
def Obligations.EveryWordEncodesItsCommand : Prop :=
  ∀ (w : Nat) (c : CommandWord w), (decode c).wf w = true ∧ encode (decode c) w = c

/-- R46, R47, R48: the match and mask values of the operation codes select the command of a 34-bit word, and `LEN` is
its low 32 bits; at any width the code stands above the `LENW` bits of `LEN`. -/
def Obligations.OperationCodeSelectsCommand : Prop :=
  (∀ c : CommandWord,
    (c &&& 0x300000000#34 = 0x000000000#34 → decode c = .b64enclen (c.toNat % 2 ^ 32)) ∧
    (c &&& 0x300000000#34 = 0x100000000#34 → decode c = .b64declen (c.toNat % 2 ^ 32)) ∧
    (c &&& 0x300000000#34 = 0x200000000#34 → decode c = .b64enc (c.toNat % 2 ^ 32)) ∧
    (c &&& 0x300000000#34 = 0x300000000#34 → decode c = .b64dec (c.toNat % 2 ^ 32))) ∧
  ∀ (w : Nat) (c : CommandWord w),
    (c.toNat / 2 ^ w = 0 → decode c = .b64enclen (c.toNat % 2 ^ w)) ∧
    (c.toNat / 2 ^ w = 1 → decode c = .b64declen (c.toNat % 2 ^ w)) ∧
    (c.toNat / 2 ^ w = 2 → decode c = .b64enc (c.toNat % 2 ^ w)) ∧
    (c.toNat / 2 ^ w = 3 → decode c = .b64dec (c.toNat % 2 ^ w))

/-- The command words that spec/95_test_vectors.md Part 3 prints decode to the commands they stand beside. -/
def Obligations.ProgramWordsDecode : Prop :=
  decode (w := 32) 0x000000003#34 = .b64enclen 3 ∧ decode (w := 32) 0x200000003#34 = .b64enc 3 ∧
    decode (w := 32) 0x100000008#34 = .b64declen 8 ∧ decode (w := 32) 0x300000008#34 = .b64dec 8

/-! ### The step -/

/-- R46, log 6: when the host's next action is a command, the step decodes its word, takes its attachments and executes
it, as a whole (`call`) or by its start alone (`start`); when the host leaves the engine to itself (`pass`) the step is
the engine's. `exec` and `step` are the default width's `execAt` and `stepAt`. -/
def Obligations.StepExecutesIssuedCommand : Prop :=
  (∀ (s : State) (c : Command) (rest : List HostAction), s.inbox = .call c :: rest →
    step s = exec (decode c.word) { s with inbox := rest, bufs := c.bufs }) ∧
  (∀ (w : Nat) (s : State w) (rest : List (HostAction w)),
    (∀ c, s.inbox = .call c :: rest → stepAt s = execAt (decode c.word) { s with inbox := rest, bufs := c.bufs }) ∧
    (∀ c, s.inbox = .start c :: rest →
      stepAt s = startOnly (decode c.word) { s with inbox := rest, bufs := c.bufs }) ∧
    (s.inbox = .pass :: rest → stepAt s = engineStep { s with inbox := rest })) ∧
  (∀ s : State, step s = stepAt s) ∧ ∀ (i : Instr) (s : State), exec i s = execAt i s

/-- R21, R130, R141: with no host action pending a block that is not running waits unchanged, and a running transform
takes its own next step. -/
def Obligations.StepWithoutHostAction : Prop :=
  ∀ (w : Nat) (s : State w), s.inbox = [] →
    (s.phase ≠ .run → stepAt s = .next s) ∧
    (s.phase = .run → s.op = opB64Enc → stepAt s = encStep s) ∧
    (s.phase = .run → s.op = opB64Dec → stepAt s = decStep s)

/-! ### The Alphabet Table -/

/-- R50: the closed form of `ALPHA`, its 64 entries, and that the pad symbol is none of them. -/
def Obligations.AlphabetIsOrderedSequence : Prop :=
  alphaTable.length = 64 ∧ Config.padCh ∉ alphaTable ∧
    ∀ v : SymVal,
      sym v =
        if v.toNat ≤ 25 then BitVec.ofNat 8 (0x41 + v.toNat)
        else if v.toNat ≤ 51 then BitVec.ofNat 8 (0x61 + (v.toNat - 26))
        else if v.toNat ≤ 61 then BitVec.ofNat 8 (0x30 + (v.toNat - 52))
        else if v.toNat = 62 then 0x2B#8 else 0x2F#8

/-- R51: `INV` has 128 entries, exactly 64 of them valid, and they are the inverse of `ALPHA`; the entries of `=`, of
the four whitespace characters, of 0x00 and of 0x7F are invalid; and with or without the range test the result is the
same. -/
def Obligations.InverseTableInvertsAlphabet : Prop :=
  invTable.length = 128 ∧ (invTable.filter Option.isSome).length = 64 ∧
    (∀ (c : Byte) (v : SymVal), invTable.getD c.toNat none = some v ↔ alphaTable.getD v.toNat 0#8 = c) ∧
    (∀ c ∈ [0x3D, 0x09, 0x0A, 0x0D, 0x20, 0x00, 0x7F], invTable.getD c none = none) ∧
    ∀ c : Byte, c.toNat < 128 → val c = invTable.getD c.toNat none

/-- R61: `VAL` is the range test and then the table; it is valid on exactly the 64 codes of `ALPHA` and invalid on the
other 192, the rule's corner cases among them; `VAL('Q')` is 16. -/
def Obligations.InverseLookupRangeTest : Prop :=
  (∀ c : Byte, val c = if 1 ≤ c.toNat ∧ c.toNat ≤ 126 then invTable.getD c.toNat none else none) ∧
    (∀ c : Byte, (val c).isSome = true ↔ c ∈ alphaTable) ∧
    ((List.range 256).filter fun c => (val (BitVec.ofNat 8 c)).isSome).length = 64 ∧
    ((List.range 256).filter fun c => (val (BitVec.ofNat 8 c)).isNone).length = 192 ∧
    (∀ c ∈ [0x00#8, 0x7F#8, 0x80#8, 0xFF#8, 0x3D#8, 0x20#8, 0x09#8, 0x0A#8, 0x0D#8, 0x2D#8, 0x5F#8, 0x40#8, 0x5B#8,
      0x60#8, 0x7B#8, 0x3A#8, 0x2E#8], val c = none) ∧
    val 0x51#8 = some 16#6

/-- R63: the two lookups are inverse to each other on the alphabet, so `SYM` is injective and its image is exactly the
set of characters on which `VAL` is valid, which has 64 members. -/
def Obligations.LookupsAreInverse : Prop :=
  (∀ v : SymVal, val (sym v) = some v) ∧ (∀ (c : Byte) (v : SymVal), val c = some v → sym v = c) ∧
    Function.Injective sym ∧ (∀ c : Byte, (∃ v, sym v = c) ↔ ∃ v, val c = some v) ∧
    ((List.range 256).filter fun c => (val (BitVec.ofNat 8 c)).isSome).length = 64

/-- R62, R56: the definition of `CLASS`, the members of the four classes, and their sizes 4, 1, 64 and 187. -/
def Obligations.CharacterClassesPartition : Prop :=
  (∀ c : Byte, classify c =
      if c = 0x20#8 ∨ c = 0x09#8 ∨ c = 0x0A#8 ∨ c = 0x0D#8 then .ws
      else if c = 0x3D#8 then .pad
      else match val c with
        | some v => .symbol v
        | none => .invalid) ∧
    (∀ c : Byte, classify c = .ws ↔ c = 0x09#8 ∨ c = 0x0A#8 ∨ c = 0x0D#8 ∨ c = 0x20#8) ∧
    (∀ c : Byte, classify c = .pad ↔ c = 0x3D#8) ∧
    (∀ (c : Byte) (v : SymVal), classify c = .symbol v ↔ c = sym v) ∧
    ((List.range 256).filter fun c => classify (BitVec.ofNat 8 c) == .ws).length = 4 ∧
    ((List.range 256).filter fun c => (val (BitVec.ofNat 8 c)).isSome).length = 64 ∧
    ((List.range 256).filter fun c => classify (BitVec.ofNat 8 c) == .invalid).length = 187

/-! ### The size estimators -/

/-- R102, with the admission bound of R108: `B64ENCLEN` completes in one step with `RESULT = ((LEN + 2) / 3) * 4` and
`STATUS.FAIL = 0`, at the default width and at every other, and that is the exact number of characters that the encoder
writes for `LEN` bytes; the start transition sets the working registers; memory is unchanged. The formula is the one
that spec/90_conflicts.md C3 chooses. -/
def Obligations.EncodedLengthCompletes : Prop :=
  (∀ (n : Nat) (s : State), s.phase ≠ .run → n < 2 ^ 31 → (n + 2) / 3 * 4 < 2 ^ 31 →
    ∃ t, exec (.b64enclen n) s = .next t ∧ EstimatorOutcome 0#2 n ((n + 2) / 3 * 4) s t) ∧
  (∀ (w n : Nat) (s : State w), s.phase ≠ .run → n < 2 ^ (w - 1) → (n + 2) / 3 * 4 < 2 ^ (w - 1) →
    ∃ t, execAt (.b64enclen n) s = .next t ∧ EstimatorOutcome 0#2 n ((n + 2) / 3 * 4) s t) ∧
  ∀ (n : Nat) (b : List Byte), b.length = n → (encText b).length = (n + 2) / 3 * 4

/-- R104, with the admission bound of R108: `B64DECLEN` completes in one step with `RESULT = (LEN * 3) / 4` and
`STATUS.FAIL = 0`, at the default width and at every other, and that is an upper bound of the decoded length of every
text of `LEN` characters; the start transition sets the working registers; memory is unchanged. -/
def Obligations.DecodedLengthCompletes : Prop :=
  (∀ (n : Nat) (s : State), s.phase ≠ .run → n < 2 ^ 31 →
    ∃ t, exec (.b64declen n) s = .next t ∧ EstimatorOutcome 1#2 n (n * 3 / 4) s t) ∧
  (∀ (w n : Nat) (s : State w), s.phase ≠ .run → n < 2 ^ (w - 1) →
    ∃ t, execAt (.b64declen n) s = .next t ∧ EstimatorOutcome 1#2 n (n * 3 / 4) s t) ∧
  ∀ (n : Nat) (t y : List Byte), t.length = n → decText t = some y → y.length ≤ n * 3 / 4

/-- R41, R106, R107, R109: whatever an estimator answers with a next state, no element of memory, no attachment and not
`POS` (log 8) has changed, it never sets `STATUS.FAIL`, and `RESULT` is its own function of `LEN` alone. -/
def Obligations.EstimatorFrame : Prop :=
  ∀ (w n : Nat) (s t : State w),
    (execAt (.b64enclen n) s = .next t →
      t = { s with
        op := 0#2, len := BitVec.ofNat w n, acc := 0#24, endMark := 0#2, si := 0#w, di := 0#w, phase := .done,
        fail := false, result := BitVec.ofNat w (encodedLength n) } ∧ t.result.toNat = encodedLength n) ∧
    (execAt (.b64declen n) s = .next t →
      t = { s with
        op := 1#2, len := BitVec.ofNat w n, acc := 0#24, endMark := 0#2, si := 0#w, di := 0#w, phase := .done,
        fail := false, result := BitVec.ofNat w (decodedLength n) } ∧ t.result.toNat = decodedLength n)

/-- R103, R105: the laws of the two length formulas and of their composition. -/
def Obligations.EstimatorLaws : Prop :=
  ∀ m n : Nat,
    encodedLength n % 4 = 0 ∧ (encodedLength n = 0 ↔ n = 0) ∧ (m ≤ n → encodedLength m ≤ encodedLength n) ∧
      decodedLength (encodedLength n) = 3 * ((n + 2) / 3) ∧ n ≤ decodedLength (encodedLength n) ∧
      (decodedLength (encodedLength n) = n ↔ n % 3 = 0)

/-! ### Starting and refusing -/

/-- R23: starting any operation that may start writes every working register as the rule says and keeps `RESULT` and
`STATUS.FAIL`; no later step of the engine changes those two until the operation ends. A start without waiting is the
start transition alone for the two transforms. -/
def Obligations.StartTransitionSetsWorkingRegisters : Prop :=
  ∀ w : Nat, (∀ (i : Instr) (s : State w), CanStart (opOf i) i.lenOf s →
    ∃ p, beginOp (opOf i) i.lenOf s =
        .next { s with
          op := opOf i, len := BitVec.ofNat w i.lenOf, phase := .run, acc := 0#24, pos := p, endMark := 0#2,
          si := 0#w, di := 0#w } ∧
      (opOf i = 2#2 → p = 2#2) ∧ (opOf i = 3#2 → p = 0#2) ∧
      (isTransform (opOf i) = true → startOnly i s = beginOp (opOf i) i.lenOf s)) ∧
    ∀ s t : State w, s.phase = .run → engineStep s = .next t → t.phase = .run → t.result = s.result ∧ t.fail = s.fail

/-- R138: a command while an operation is running is refused, whichever it is and however it is issued. (That the
refusal is named `busy` also where the command breaks other duties is the model's order, log 12.) -/
def Obligations.BusyBlockRefusesCommands : Prop :=
  ∀ (w : Nat) (i : Instr) (s : State w), s.phase = .run →
    execAt i s = .refused .busy ∧ startOnly i s = .refused .busy

/-- R108: a command is refused for its length exactly where `LEN` or its estimator's value is not below `2^(LENW-1)`; at
the default width that is `LEN > 1610612733` for `B64ENCLEN` and `B64ENC`, `LEN > 2147483647` for `B64DECLEN` and
`B64DEC`. (That the refusal is named so also where the buffers overlap is the model's order, log 12.) -/
def Obligations.LengthBeyondBoundRefused : Prop :=
  (∀ (w : Nat) (i : Instr) (s : State w), s.phase ≠ .run →
    (execAt i s = .refused .lengthBound ↔
      2 ^ (w - 1) ≤ i.lenOf ∨ 2 ^ (w - 1) ≤ estimate (opOf i) i.lenOf)) ∧
  ∀ (n : Nat) (s : State), s.phase ≠ .run →
    (1610612733 < n ↔ exec (.b64enclen n) s = .refused .lengthBound) ∧
    (1610612733 < n ↔ exec (.b64enc n) s = .refused .lengthBound) ∧
    (2147483647 < n ↔ exec (.b64declen n) s = .refused .lengthBound) ∧
    (2147483647 < n ↔ exec (.b64dec n) s = .refused .lengthBound)

/-- R43, R126: a transform with an admitted length (R108) whose source and destination share an element is refused, and
one whose buffers share none is not refused for that. -/
def Obligations.SharedBufferElementRefused : Prop :=
  ∀ (w n : Nat) (s : State w), s.phase ≠ .run → n < 2 ^ (w - 1) →
    (encodedLength n < 2 ^ (w - 1) →
      ((∃ a, s.bufs.src ≤ a ∧ a < s.bufs.src + n ∧ s.bufs.dst ≤ a ∧ a < s.bufs.dst + s.bufs.dcap) ↔
        execAt (.b64enc n) s = .refused .buffersOverlap)) ∧
    ((∃ a, s.bufs.src ≤ a ∧ a < s.bufs.src + n ∧ s.bufs.dst ≤ a ∧ a < s.bufs.dst + s.bufs.dcap) ↔
        execAt (.b64dec n) s = .refused .buffersOverlap)

/-! ### The encoder -/

/-- R73: a byte that does not complete a group enters the lane `POS` names; nothing is written. -/
def Obligations.EncoderByteEntersLane : Prop :=
  ∀ (w : Nat) (s : State w), Running opB64Enc s → s.si < s.len → s.pos ≠ 0#2 →
    stepAt s =
      .next { s with
        acc := s.acc ||| (s.mem.read (s.bufs.src + s.si.toNat)).setWidth 24 <<< (8 * s.pos.toNat)
        pos := s.pos - 1#2
        si := s.si + 1#w }

/-- R74: the third byte of a group flushes it, where the destination holds four more elements. The four symbols go to
ascending indices from `DI` within the one step, most significant field first, none of them a pad; `ACC` is cleared and
`POS` returns to 2; no other element of memory changes. -/
def Obligations.EncoderFlushWritesFourSymbols : Prop :=
  ∀ (w : Nat) (s : State w) (g : Group), Invariant s → Running opB64Enc s → s.si < s.len → s.pos = 0#2 →
    g = s.acc ||| (s.mem.read (s.bufs.src + s.si.toNat)).setWidth 24 → s.di.toNat + 4 ≤ s.bufs.dcap →
    stepAt s =
        .next { s with
          mem := s.mem.writeBytes (s.bufs.dst + s.di.toNat)
            [sym (g.extractLsb' 18 6), sym (g.extractLsb' 12 6), sym (g.extractLsb' 6 6), sym (g.extractLsb' 0 6)]
          di := s.di + 4#w
          acc := 0#24
          pos := 2#2
          si := s.si + 1#w } ∧
      ∀ v : SymVal, sym v ≠ 0x3D#8

/-- R75, R76, R77, R78: the closing step. With no partial group it writes nothing; with one leftover byte it writes two
symbols and two pads, with two it writes three symbols and one pad, where the destination holds four more elements; and
the operation is done with `RESULT = DI`. -/
def Obligations.EncoderClosingStep : Prop :=
  ∀ (w : Nat) (s : State w), Invariant s → Running opB64Enc s → s.si = s.len →
    (s.pos = 2#2 → stepAt s = .next { s with result := s.di, fail := false, phase := .done }) ∧
    (s.pos = 1#2 → s.di.toNat + 4 ≤ s.bufs.dcap →
      stepAt s =
        .next { s with
          mem := s.mem.writeBytes (s.bufs.dst + s.di.toNat)
            [sym (s.acc.extractLsb' 18 6), sym (s.acc.extractLsb' 12 6), 0x3D#8, 0x3D#8]
          di := s.di + 4#w
          result := s.di + 4#w
          fail := false
          phase := .done }) ∧
    (s.pos = 0#2 → s.di.toNat + 4 ≤ s.bufs.dcap →
      stepAt s =
        .next { s with
          mem := s.mem.writeBytes (s.bufs.dst + s.di.toNat)
            [sym (s.acc.extractLsb' 18 6), sym (s.acc.extractLsb' 12 6), sym (s.acc.extractLsb' 6 6), 0x3D#8]
          di := s.di + 4#w
          result := s.di + 4#w
          fail := false
          phase := .done })

/-- R38, R126 (the spec's decision D5): a flush of either transform, or a tail of the encoder, whose last element would
lie beyond `DCAP` stops the operation with `DstOverrun`. -/
def Obligations.FlushBeyondCapacityFaults : Prop :=
  ∀ (w : Nat) (s : State w), Invariant s →
    (Running opB64Enc s → s.si < s.len → s.pos = 0#2 → s.bufs.dcap < s.di.toNat + 4 → stepAt s = .fault .dstOverrun) ∧
    (Running opB64Enc s → s.si = s.len → s.pos ≠ 2#2 → s.bufs.dcap < s.di.toNat + 4 → stepAt s = .fault .dstOverrun) ∧
    ∀ (v : SymVal) (e : BitVec 2), Running opB64Dec s → s.si < s.len → s.pos = 3#2 → CharAccepted s v e →
      s.bufs.dcap < s.di.toNat + (if e = 0#2 then 3 else if e = 1#2 then 1 else 2) → stepAt s = .fault .dstOverrun

/-- R70, R79: with the capacity duty met, `B64ENC` completes, at the default width and at every other: `DST[0..n)` is
`ENC` of the source, `RESULT` is `B64ENCLEN(LEN)`, `STATUS.FAIL` is 0, and nothing but the working registers and those
elements has changed (`EncoderOutcome`). -/
def Obligations.EncoderCompletes : Prop :=
  (∀ (n : Nat) (s : State), CanStart opB64Enc n s → encodedLength n ≤ s.bufs.dcap →
    ∃ t, exec (.b64enc n) s = .next t ∧ EncoderOutcome n s t) ∧
  ∀ (w n : Nat) (s : State w), CanStart opB64Enc n s → encodedLength n ≤ s.bufs.dcap →
    ∃ t, execAt (.b64enc n) s = .next t ∧ EncoderOutcome n s t

/-- R32, R78, R81: the frame of `B64ENC`. Whatever it answers with a next state, every element outside
`DST[0..RESULT)` reads as before, the attachments, the host's actions and the free values drawn are unchanged, `END` is
0 and `STATUS.FAIL` is 0. -/
def Obligations.EncoderFrame : Prop :=
  ∀ (w n : Nat) (s t : State w), execAt (.b64enc n) s = .next t →
    (∀ a, OutsideDst s t.result.toNat a → t.mem.read a = s.mem.read a) ∧
      t = { s with
        op := 2#2, len := BitVec.ofNat w n, acc := t.acc, pos := t.pos, endMark := 0#2, si := t.si, di := t.di,
        phase := .done, fail := false, result := t.result, mem := t.mem }

/-- R38, R126: `B64ENC` into a destination smaller than `B64ENCLEN(LEN)` stops with `DstOverrun`. -/
def Obligations.EncoderShortBufferFaults : Prop :=
  ∀ (w n : Nat) (s : State w), CanStart opB64Enc n s → s.bufs.dcap < encodedLength n →
    execAt (.b64enc n) s = .fault .dstOverrun

/-- R72: a `B64ENC` of length `n` that was started without waiting is running with `SI = k` after `k <= n` steps and
has ended after exactly `n + 1`. -/
def Obligations.EncoderTakesLenPlusOneSteps : Prop :=
  ∀ (w n : Nat) (s t : State w), s.inbox = [] → encodedLength n ≤ s.bufs.dcap → startOnly (.b64enc n) s = .next t →
    (∀ k, k ≤ n → ∃ u, runSteps k t = .next u ∧ u.phase = .run ∧ u.si.toNat = k) ∧
      ∃ u, runSteps (n + 1) t = .next u ∧ u.phase = .done

/-- R80, R103: the length of `ENC`, always a multiple of 4. -/
def Obligations.EncodedTextLength : Prop :=
  ∀ b : List Byte, (encText b).length = (b.length + 2) / 3 * 4

/-- R55, R64, R80: an encoded text is symbols of the alphabet and then exactly `(3 - |b| mod 3) mod 3` pads, so a `=`
occurs nowhere else and no whitespace occurs. -/
def Obligations.EncodedTextIsSymbolsThenPads : Prop :=
  ∀ b : List Byte,
    ∃ body : List SymVal, encText b = body.map sym ++ List.replicate ((3 - b.length % 3) % 3) Config.padCh

/-- R80: `ENC` is injective. -/
def Obligations.EncodingIsInjective : Prop :=
  ∀ b c : List Byte, encText b = encText c → b = c

/-! ### The decoder -/

/-- R86, R87, R88, R111, R112, R113, R116: a character that fails its check ends the operation by the failure exit,
which changes nothing but `RESULT`, `STATUS.FAIL`, `PHASE` and the destination's guarantee (`FailedFrom`, log 5). That
an invalid character fails also after the first `=` rests on D11 (log 16). -/
def Obligations.DecoderRejectsCharacter : Prop :=
  ∀ (w : Nat) (s : State w), Running opB64Dec s → s.si < s.len → CharRejected s →
    ∃ t, stepAt s = .next t ∧ FailedFrom s t

/-- R85, R87, R88, R89: an accepted character that does not complete a unit enters the group from the low end and
advances `SI` and `POS` by one; the first `=` sets the end marker. What is accepted after the first `=` rests on D11
and D12 (log 16). -/
def Obligations.DecoderAcceptsCharacter : Prop :=
  ∀ (w : Nat) (s : State w) (v : SymVal) (e : BitVec 2), Running opB64Dec s → s.si < s.len → s.pos ≠ 3#2 →
    CharAccepted s v e →
    stepAt s =
      .next { s with
        acc := s.acc <<< 6 + v.setWidth 24
        pos := s.pos + 1#2
        endMark := e
        si := s.si + 1#w }

/-- R90: the fourth character of a unit flushes the group with the end marker as just updated, where the destination
has room: three bytes for 0, one for 1, two for 2, to ascending indices from `DI` within the one step; `ACC` and `POS`
return to 0 and the flush does not change `END`. What a non-`=` character after the first `=` contributes rests on D11
(log 16). -/
def Obligations.DecoderFlushWritesBytes : Prop :=
  ∀ (w : Nat) (s : State w) (v : SymVal) (e : BitVec 2) (g : Group) (bs : List Byte), Invariant s → Running opB64Dec s →
    s.si < s.len → s.pos = 3#2 → CharAccepted s v e → g = s.acc <<< 6 + v.setWidth 24 →
    bs = (if e = 0#2 then [g.extractLsb' 16 8, g.extractLsb' 8 8, g.extractLsb' 0 8]
      else if e = 1#2 then [g.extractLsb' 16 8] else [g.extractLsb' 16 8, g.extractLsb' 8 8]) →
    s.di.toNat + bs.length ≤ s.bufs.dcap →
    stepAt s =
      .next { s with
        mem := s.mem.writeBytes (s.bufs.dst + s.di.toNat) bs
        di := s.di + BitVec.ofNat w bs.length
        acc := 0#24
        pos := 0#2
        endMark := e
        si := s.si + 1#w }

/-- R91: at the end of the input the operation succeeds with `RESULT = DI` when the last unit is complete, and fails
otherwise, whatever the end marker; and the unit position is 0 exactly when `LEN` is a multiple of 4. -/
def Obligations.DecoderClosingStep : Prop :=
  ∀ (w : Nat) (s : State w), Running opB64Dec s → s.si = s.len →
    (s.pos = 0#2 → stepAt s = .next { s with result := s.di, fail := false, phase := .done }) ∧
    (s.pos ≠ 0#2 → ∃ t, stepAt s = .next t ∧ t.result = Config.failVal ∧ t.fail = true ∧ t.phase = .done) ∧
    (Invariant s → (s.pos = 0#2 ↔ s.len.toNat % 4 = 0))

/-- R116, R93: the step that finds a cause takes the failure exit: `RESULT`, `STATUS.FAIL` and `PHASE` are written,
every other register of the block keeps its value, and memory outside the destination is as it was; of the destination,
which R93 leaves without a guarantee (log 5), nothing is said. A character step finds a cause where its checks answer
one, the closing step where the last unit is incomplete. -/
def Obligations.FailureExitKeepsRegistersAndOtherMemory : Prop :=
  ∀ (w : Nat) (s : State w), Running opB64Dec s →
    (s.si < s.len ∧ (∃ c, checkChar (readSrc s) s.pos s.endMark = .error c) ∨ s.si = s.len ∧ s.pos ≠ 0#2) →
    ∃ t, stepAt s = .next t ∧
      t = { s with result := Config.failVal, fail := true, phase := .done, mem := t.mem, fresh := t.fresh } ∧
      ∀ a, OutsideDst s s.bufs.dcap a → t.mem.read a = s.mem.read a

/-- R86: whitespace is fatal at every index, whatever the unit position and the end marker: the step that reads it
fails, and a text that holds one anywhere is rejected. -/
def Obligations.WhitespaceIsFatalEverywhere : Prop :=
  (∀ (w : Nat) (s : State w), Running opB64Dec s → s.si < s.len →
    s.mem.read (s.bufs.src + s.si.toNat) ∈ [0x20#8, 0x09#8, 0x0A#8, 0x0D#8] →
    ∃ t, stepAt s = .next t ∧ t.result = Config.failVal ∧ t.fail = true ∧ t.phase = .done) ∧
    ∀ (t : List Byte) (c : Byte), c ∈ [0x20#8, 0x09#8, 0x0A#8, 0x0D#8] → c ∈ t → decText t = none

/-- R92: where `DEC` of the source (R94) is `ok(y)` and `y` fits, `B64DEC` completes, at the default width and at every
other, with `DST[0..|y|) = y`, `RESULT = |y|`, which is at most `B64DECLEN(LEN)`, and `STATUS.FAIL = 0`, and nothing but
the working registers and those elements has changed (`DecoderOutcome`). On lenient inputs `DEC` rests on D11 and D12
(log 16). -/
def Obligations.DecoderSucceeds : Prop :=
  (∀ (n : Nat) (s : State) (y : List Byte), CanStart opB64Dec n s → decText (sourceOf s n) = some y →
    y.length ≤ s.bufs.dcap →
    ∃ t, exec (.b64dec n) s = .next t ∧ DecoderOutcome n y s t ∧ y.length ≤ decodedLength n) ∧
  ∀ (w n : Nat) (s : State w) (y : List Byte), CanStart opB64Dec n s → decText (sourceOf s n) = some y →
    y.length ≤ s.bufs.dcap →
    ∃ t, execAt (.b64dec n) s = .next t ∧ DecoderOutcome n y s t ∧ y.length ≤ decodedLength n

/-- R82, R93, R94, R116, R117: where `DEC` of the source is `fail`, `B64DEC` ends by the failure exit at the first
offending character (or at the end of a truncated text), at the default width and at every other, for a destination
that holds what the units before it yield: `RESULT = FAILVAL`, `STATUS.FAIL = 1`, memory outside `DST[0..DCAP)`
unchanged, each element inside any value (`DecoderFailure`). On lenient inputs the first offender rests on D11 and D12
(log 16). -/
def Obligations.DecoderFails : Prop :=
  (∀ (n : Nat) (s : State) (c : FailCause) (i : Nat), CanStart opB64Dec n s →
    failCause (sourceOf s n) = some (c, i) → bytesBefore (sourceOf s n) i ≤ s.bufs.dcap →
    ∃ t, exec (.b64dec n) s = .next t ∧ DecoderFailure n i s t) ∧
  ∀ (w n : Nat) (s : State w) (c : FailCause) (i : Nat), CanStart opB64Dec n s →
    failCause (sourceOf s n) = some (c, i) → bytesBefore (sourceOf s n) i ≤ s.bufs.dcap →
    ∃ t, execAt (.b64dec n) s = .next t ∧ DecoderFailure n i s t

/-- R38, R126: `B64DEC` stops with `DstOverrun` where an element it is to write lies beyond `DCAP`. On lenient inputs
which elements those are rests on D11 and D12 (log 16). -/
def Obligations.DecoderShortBufferFaults : Prop :=
  ∀ (w n : Nat) (s : State w), CanStart opB64Dec n s →
    (∀ y, decText (sourceOf s n) = some y → s.bufs.dcap < y.length → execAt (.b64dec n) s = .fault .dstOverrun) ∧
    ∀ c i, failCause (sourceOf s n) = some (c, i) → s.bufs.dcap < bytesBefore (sourceOf s n) i →
      execAt (.b64dec n) s = .fault .dstOverrun

/-- R32, R93, R101: the frame of `B64DEC`. After a success every element outside `DST[0..RESULT)` reads as before,
after a failure every element outside `DST[0..DCAP)`; attachments and host actions are unchanged. -/
def Obligations.DecoderFrame : Prop :=
  ∀ (w n : Nat) (s t : State w), execAt (.b64dec n) s = .next t →
    t = { s with
        op := 3#2, len := BitVec.ofNat w n, acc := t.acc, pos := t.pos, endMark := t.endMark, si := t.si, di := t.di,
        phase := .done, fail := t.fail, result := t.result, mem := t.mem, fresh := t.fresh } ∧
      (t.fail = false → t.fresh = s.fresh ∧ ∀ a, OutsideDst s t.result.toNat a → t.mem.read a = s.mem.read a) ∧
      (t.fail = true → t.result = Config.failVal ∧
        ∀ a, OutsideDst s s.bufs.dcap a → t.mem.read a = s.mem.read a)

/-- R84, R117: a `B64DEC` started without waiting is running with `SI = k` after `k` steps for every `k` up to the
index `i` of the first offending character (up to `n` where there is none or the text is truncated), and its next step
ends it: as a failure there, as a success where `DEC` is `ok`. On lenient inputs the first offender rests on D11 and
D12 (log 16). -/
def Obligations.DecoderStopsAtFirstOffender : Prop :=
  ∀ (w n : Nat) (s t : State w), s.inbox = [] → decodedLength n ≤ s.bufs.dcap → startOnly (.b64dec n) s = .next t →
    (∀ c i, failCause (sourceOf s n) = some (c, i) →
      (∀ k, k ≤ i → ∃ u, runSteps k t = .next u ∧ u.phase = .run ∧ u.si.toNat = k) ∧
        ∃ u, runSteps (i + 1) t = .next u ∧ u.phase = .done ∧ u.fail = true) ∧
    (∀ y, decText (sourceOf s n) = some y →
      (∀ k, k ≤ n → ∃ u, runSteps k t = .next u ∧ u.phase = .run ∧ u.si.toNat = k) ∧
        ∃ u, runSteps (n + 1) t = .next u ∧ u.phase = .done ∧ u.fail = false)

/-- R95: decoding an encoded byte sequence gives it back. -/
def Obligations.DecodeOfEncodeIsIdentity : Prop :=
  ∀ b : List Byte, decText (encText b) = some b

/-- R99: the decoded length never exceeds `B64DECLEN`; more strongly, at every point of every decode, failing or not,
`DI <= 3 * (SI / 4)`, so a destination of `B64DECLEN(LEN)` elements is never overrun. -/
def Obligations.DecodedTextWithinBound : Prop :=
  (∀ (t : List Byte) (y : List Byte), decText t = some y → y.length ≤ decodedLength t.length ∧ t.length % 4 = 0) ∧
    ∀ (w n k : Nat) (s t : State w), Invariant s → s.inbox = [] → startOnly (.b64dec n) s = .next t →
      (∀ u, runSteps k t = .next u → u.di.toNat ≤ 3 * (u.si.toNat / 4)) ∧
      (decodedLength n ≤ s.bufs.dcap → ∃ u, runSteps k t = .next u)

/-- R100: the decoded length of an accepted text of `U` units from the place of the first `=`; between `3U - 2` and `3U`
where that is in the last unit; never less than `U`; and 0 only for the empty text. -/
def Obligations.DecodedLengthFromFirstPad : Prop :=
  ∀ (t : List Byte) (y : List Byte), decText t = some y →
    (firstPad t = none → y.length = 3 * (t.length / 4)) ∧
    (∀ p, firstPad t = some p →
      y.length = 3 * (p / 4) + (if p % 4 = 2 then 1 else 2) * (t.length / 4 - p / 4)) ∧
    ((∀ p, firstPad t = some p → p / 4 = t.length / 4 - 1) → 3 * (t.length / 4) ≤ y.length + 2 ∧
      y.length ≤ 3 * (t.length / 4)) ∧
    t.length / 4 ≤ y.length ∧ (y.length = 0 ↔ t.length = 0)

/-- R96, R98: after any number of full units without a `=`, a unit whose first `=` stands at position 2 yields the one
byte that its first two characters determine, whatever symbol or pad follows, and one whose first `=` stands at position
3 yields the two bytes that its first three determine. The bits left over are not checked (log 16 names the reading this
rests on). -/
def Obligations.PaddedUnitIgnoresUnusedBits : Prop :=
  ∀ (t y : List Byte) (a b c : SymVal) (x : Byte), decText t = some y → firstPad t = none →
    (classify x = .pad ∨ ∃ v, classify x = .symbol v) →
    decText (t ++ [sym a, sym b, 0x3D#8, x]) = some (y ++ [a ++ b.extractLsb' 4 2]) ∧
      decText (t ++ [sym a, sym b, sym c, 0x3D#8]) =
        some (y ++ [a ++ b.extractLsb' 4 2, b.extractLsb' 0 4 ++ c.extractLsb' 2 4])

/-- R97: the end marker outlives its unit. After an accepted text with a pad, every further unit of symbols and pads in
any order is accepted and yields as many bytes as the marker says (log 16 names the reading this rests on). -/
def Obligations.EndMarkerOutlivesUnit : Prop :=
  ∀ (t u y : List Byte) (p : Nat), decText t = some y → firstPad t = some p → u.length % 4 = 0 →
    (∀ c ∈ u, classify c = .pad ∨ ∃ v, classify c = .symbol v) →
    ∃ z, decText (t ++ u) = some (y ++ z) ∧ z.length = (if p % 4 = 2 then 1 else 2) * (u.length / 4)

/-- R57, R114, R117: a text is rejected exactly when it has an offender or, every character accepted, its length is not
a multiple of 4; truncation is the cause in the second case only. -/
def Obligations.TruncationFoundLast : Prop :=
  ∀ t : List Byte,
    (decText t = none ↔ ∃ c i, failCause t = some (c, i)) ∧
      ((∃ i, failCause t = some (.truncatedInput, i)) ↔ (∀ i, i < t.length → offends t i = false) ∧ t.length % 4 ≠ 0)

/-! ### The machine as a whole -/

/-- R26, R130: what power-on reset leaves. (`OP`, `LEN` and the working registers, which the spec leaves unspecified,
are the model's choice, log 3, and not stated.) -/
def Obligations.ResetState : Prop :=
  State.reset.phase = .idle ∧ State.reset.busy = false ∧ State.reset.isDone = false ∧ State.reset.fail = false ∧
    State.reset.result = 0#32 ∧ step State.reset = .next State.reset

/-- The invariant holds at reset, at every width of at least one bit. -/
def Obligations.InvariantAtReset : Prop :=
  Invariant State.reset ∧ ∀ w : Nat, 0 < w → Invariant (State.resetAt w)

/-- Every step keeps the invariant: memory's canonical form, the agreement of `STATUS.FAIL` and `RESULT` (R22), the sign
of a successful result (R9), and the values of the working registers during an operation (R12, R15 to R19, R99). -/
def Obligations.StepKeepsInvariant : Prop :=
  ∀ (w : Nat) (s t : State w), Invariant s → stepAt s = .next t → Invariant t

/-- R38, R99, R134: with the capacity duty met, no step of an operation stops: no write leaves the destination, for any
input. -/
def Obligations.CapacityMetNeverFaults : Prop :=
  ∀ (w : Nat) (s : State w), Invariant s → s.phase = .run → s.inbox = [] → estimate s.op s.len.toNat ≤ s.bufs.dcap →
    ∃ t, stepAt s = .next t

/-- R16, R18, R75: from a state that meets the invariant the engine always has an enabled step. -/
def Obligations.EngineNeverStuck : Prop :=
  ∀ (w : Nat) (s : State w), Invariant s → stepAt s ≠ .fault .noEnabledStep

/-- R142: an operation in progress ends after at most `LEN - SI + 1` further steps; with the capacity duty met it ends
in `PHASE = DONE`. -/
def Obligations.OperationTerminates : Prop :=
  ∀ (w : Nat) (s : State w), Invariant s → s.phase = .run → s.inbox = [] →
    ∃ k, k ≤ s.len.toNat - s.si.toNat + 1 ∧
      ((∃ t, runSteps k s = .next t ∧ t.phase = .done) ∨
        (s.bufs.dcap < estimate s.op s.len.toNat ∧ runSteps k s = .fault .dstOverrun))

/-- R42, R72, R84, R109, log 7: executing a command as one transition and starting it and letting the engine take its
`LEN + 1` steps are the same. -/
def Obligations.CallEqualsStartThenSteps : Prop :=
  ∀ (w : Nat) (i : Instr) (s t : State w), s.inbox = [] → startOnly i s = .next t →
    execAt i s = runSteps (i.lenOf + 1) t

/-- R131, R119: the outcome of an operation is a function of `OP`, `LEN`, the source and `DCAP` only: not of the working
registers, of earlier results, of where the buffers lie, of the rest of memory, or of the width of an instance that
admits the command (R7, R108). The same holds of the model's fault. -/
def Obligations.OutcomeDependsOnInputsOnly : Prop :=
  ∀ (w v : Nat) (i : Instr) (s t : State w) (s' : State v), CanStart (opOf i) i.lenOf s → CanStart (opOf i) i.lenOf s' →
    sourceOf s i.lenOf = sourceOf s' i.lenOf → s.bufs.dcap = s'.bufs.dcap →
    (∀ r, execAt i s = .fault r → execAt i s' = .fault r) ∧
    (execAt i s = .next t → ∃ t', execAt i s' = .next t' ∧ t'.fail = t.fail ∧ t'.phase = t.phase ∧
      (t.fail = false → t'.result.toNat = t.result.toNat) ∧
      (t.fail = true → t'.result = Config.failVal ∧ t.result = Config.failVal) ∧
      (isTransform (opOf i) = true → t.fail = false → ∀ k, k < t.result.toNat →
        t'.mem.read (s'.bufs.dst + k) = t.mem.read (s.bufs.dst + k)))

/-- R124: two instances over one memory, each in the middle of an operation, with disjoint buffers (R43): their steps
may be taken in either order, and neither changes what the other does. -/
def Obligations.InstancesDoNotInterfere : Prop :=
  ∀ (w v : Nat) (s₁ t₁ : State w) (s₂ t₂ : State v) (m : Memory), s₁.phase = .run → s₂.phase = .run →
    DisjointBuffers s₁ s₂ →
    engineStep (s₁.withMem m) = .next t₁ → engineStep (s₂.withMem m) = .next t₂ →
    ∃ u₁ u₂, engineStep (s₁.withMem t₂.mem) = .next u₁ ∧ engineStep (s₂.withMem t₁.mem) = .next u₂ ∧
      u₁ = t₁.withMem u₁.mem ∧ u₂ = t₂.withMem u₂.mem ∧ ∀ a, u₁.mem.read a = u₂.mem.read a

/-- R43, R135, R136: while an operation runs, the host's access to its destination and a write to its source have no
meaning; every other access of the host takes effect. -/
def Obligations.HostAccessToBuffersInUse : Prop :=
  ∀ (w : Nat) (s : State w) (rest : List (HostAction w)) (a : Nat) (v : Byte),
    (s.inbox = .write a v :: rest →
      stepAt s = if s.phase = .run ∧ (s.inDst a = true ∨ s.inSrc a = true) then .refused .bufferInUse
        else .next { s with inbox := rest, mem := s.mem.write a v }) ∧
    (s.inbox = .read a :: rest →
      stepAt s = if s.phase = .run ∧ s.inDst a = true then .refused .bufferInUse else .next { s with inbox := rest })

/-- R26, R130, R141: a reset leaves `PHASE = IDLE`, `STATUS.FAIL = 0`, `RESULT = 0` and memory as it was, except that a
reset during an operation abandons it and leaves each element of its destination any value. -/
def Obligations.ResetAbandonsOperation : Prop :=
  ∀ (w : Nat) (s : State w) (rest : List (HostAction w)), s.inbox = .reset :: rest →
    ∃ t, stepAt s = .next t ∧ t.phase = .idle ∧ t.fail = false ∧ t.result = 0#w ∧ t.inbox = rest ∧
      (s.phase ≠ .run → t.mem = s.mem) ∧
      (s.phase = .run →
        (∀ a, OutsideDst s s.bufs.dcap a → t.mem.read a = s.mem.read a) ∧
        ∀ k, k < s.bufs.dcap → t.mem.read (s.bufs.dst + k) = Config.freeByte (s.fresh + k))

/-- Log 4: memory has one form. Two canonical memories without unspecified elements that read the same everywhere are
the same data. -/
def Obligations.EqualReadingMemoriesAreEqual : Prop :=
  ∀ m m' : Memory, m.wf → m'.wf → m.unspec = [] → m'.unspec = [] → (∀ a, m.read a = m'.read a) → m = m'

/-- R21, R22, R137, with a `call` taken as one transition (log 7): the whole-machine rules of `PHASE` and of what the
host may read. The status bits are `PHASE = RUN` and `PHASE = DONE`; the outcome is readable only in `DONE`. A step
enters `RUN` only by a start and leaves it only to `DONE`, or to `IDLE` by a reset; it enters `DONE` only from `RUN` or
by a command, and returns to `IDLE` only by a reset. A step that ends no operation and is no reset keeps `RESULT` and
`STATUS.FAIL`. -/
def Obligations.PhaseTransitionsAndStatusBits : Prop :=
  ∀ (w : Nat) (s t : State w), stepAt s = .next t →
    ((s.busy = true ↔ s.phase = .run) ∧ (s.isDone = true ↔ s.phase = .done) ∧
      s.hostResult = if s.phase = .done then some (s.result, s.fail) else none) ∧
    (s.phase ≠ .run → t.phase = .run → ∃ c rest, s.inbox = .start c :: rest ∧ isTransform (opField c.word) = true) ∧
    (s.phase = .run → t.phase = .run ∨ t.phase = .done ∨ t.phase = .idle ∧ ∃ rest, s.inbox = .reset :: rest) ∧
    (t.phase = .idle → s.phase = .idle ∨ ∃ rest, s.inbox = .reset :: rest) ∧
    (s.phase = .idle → t.phase = .done →
      ∃ c rest, s.inbox = .call c :: rest ∨ s.inbox = .start c :: rest ∧ isTransform (opField c.word) = false) ∧
    ((t.result ≠ s.result ∨ t.fail ≠ s.fail) →
      t.phase = .done ∧ (s.phase = .run ∨ ∃ c rest, s.inbox = .call c :: rest ∨ s.inbox = .start c :: rest) ∨
        ∃ rest, s.inbox = .reset :: rest)
end

