-- ==== Sys2Proof/Laws/Codes.lean ====
section
/-! SUPPORT. The named constants in the form simp computes with: widths, operation codes, estimators. -/

namespace Sys2Proof

@[simp] theorem two_pow_lenw : 2 ^ Config.LENW = 4294967296 := rfl
@[simp] theorem two_pow_lenw_pred : 2 ^ (Config.LENW - 1) = 2147483648 := rfl
theorem two_pow_command : 2 ^ (Config.LENW + 2) = 17179869184 := rfl
@[simp] theorem opB64EncLen_eq : opB64EncLen = 0#2 := rfl
@[simp] theorem opB64DecLen_eq : opB64DecLen = 1#2 := rfl
@[simp] theorem opB64Enc_eq : opB64Enc = 2#2 := rfl
@[simp] theorem opB64Dec_eq : opB64Dec = 3#2 := rfl

namespace Machine

@[simp] theorem estimate_encLen (n : Nat) : estimate 0#2 n = encodedLength n := rfl
@[simp] theorem estimate_decLen (n : Nat) : estimate 1#2 n = decodedLength n := rfl
@[simp] theorem estimate_enc (n : Nat) : estimate 2#2 n = encodedLength n := rfl
@[simp] theorem estimate_dec (n : Nat) : estimate 3#2 n = decodedLength n := rfl
@[simp] theorem isTransform_encLen : isTransform 0#2 = false := rfl
@[simp] theorem isTransform_decLen : isTransform 1#2 = false := rfl
@[simp] theorem isTransform_enc : isTransform 2#2 = true := rfl
@[simp] theorem isTransform_dec : isTransform 3#2 = true := rfl
@[simp] theorem initialPos_enc (p : BitVec 2) : initialPos 2#2 p = 2#2 := rfl
@[simp] theorem initialPos_dec (p : BitVec 2) : initialPos 3#2 p = 0#2 := rfl
@[simp] theorem initialPos_encLen (p : BitVec 2) : initialPos 0#2 p = p := rfl
@[simp] theorem initialPos_decLen (p : BitVec 2) : initialPos 1#2 p = p := rfl

end Machine

end Sys2Proof
end

