-- ==== Sys2Proof/Laws/Memory.lean ====
section
/-! SUPPORT. Laws of host memory: read after write, read after forget, runs of elements, and the canonical form. -/

namespace Sys2Proof.Machine

section Lists
variable {α : Type}

theorem listGet_listPut_same (a : Nat) (v : α) (l : List (Nat × α)) : listGet a (listPut a v l) = some v := by
  induction l with
  | nil => simp [listPut, listGet]
  | cons p t ih =>
    obtain ⟨k, w⟩ := p
    by_cases h1 : a < k
    · simp [listPut, h1, listGet]
    · by_cases h2 : a = k
      · simp [listPut, h2, listGet]
      · simp [listPut, h1, h2, listGet, ih, Ne.symm h2]

theorem listGet_listPut_other {a b : Nat} (h : b ≠ a) (v : α) (l : List (Nat × α)) :
    listGet b (listPut a v l) = listGet b l := by
  induction l with
  | nil => simp [listPut, listGet, h.symm]
  | cons p t ih =>
    obtain ⟨k, w⟩ := p
    by_cases h1 : a < k
    · simp [listPut, h1, listGet, h.symm]
    · by_cases h2 : a = k
      · subst h2; simp [listPut, listGet, h.symm]
      · simp [listPut, h1, h2, listGet, ih]

theorem listGet_listDrop_same (a : Nat) (l : List (Nat × α)) : listGet a (listDrop a l) = none := by
  induction l with
  | nil => rfl
  | cons p t ih =>
    obtain ⟨k, w⟩ := p
    by_cases h : k = a <;> simp [listDrop, listGet, h, ih]

theorem listGet_listDrop_other {a b : Nat} (h : b ≠ a) (l : List (Nat × α)) :
    listGet b (listDrop a l) = listGet b l := by
  induction l with
  | nil => rfl
  | cons p t ih =>
    obtain ⟨k, w⟩ := p
    by_cases h2 : k = a
    · subst h2; simp [listDrop, listGet, h.symm, ih]
    · simp [listDrop, listGet, h2, ih]

theorem mem_listDrop {a : Nat} {p : Nat × α} {l : List (Nat × α)} :
    p ∈ listDrop a l ↔ p ∈ l ∧ p.1 ≠ a := by
  induction l with
  | nil => simp [listDrop]
  | cons q t ih =>
    obtain ⟨k, w⟩ := q
    by_cases h : k = a
    · simp only [listDrop, h, ↓reduceIte, ih, List.mem_cons]
      constructor
      · exact fun ⟨h1, h2⟩ => ⟨.inr h1, h2⟩
      · rintro ⟨rfl | h1, h2⟩
        · exact absurd rfl h2
        · exact ⟨h1, h2⟩
    · simp only [listDrop, h, ↓reduceIte, List.mem_cons, ih]
      constructor
      · rintro (rfl | ⟨h1, h2⟩)
        · exact ⟨.inl rfl, h⟩
        · exact ⟨.inr h1, h2⟩
      · rintro ⟨rfl | h1, h2⟩
        · exact .inl rfl
        · exact .inr ⟨h1, h2⟩

theorem mem_listPut {a : Nat} {v : α} {p : Nat × α} {l : List (Nat × α)} (h : p ∈ listPut a v l) :
    p = (a, v) ∨ p ∈ l := by
  induction l with
  | nil => simpa [listPut] using h
  | cons q t ih =>
    obtain ⟨k, w⟩ := q
    by_cases h1 : a < k
    · simpa [listPut, h1] using h
    · by_cases h2 : a = k
      · simp only [listPut, h2, lt_irrefl, ↓reduceIte, List.mem_cons] at h
        rcases h with h | h
        · exact .inl (by rw [h, h2])
        · exact .inr (List.mem_cons_of_mem _ h)
      · simp only [listPut, h1, h2, ↓reduceIte, List.mem_cons] at h ⊢
        rcases h with h | h
        · exact .inr (.inl h)
        · rcases ih h with h | h
          · exact .inl h
          · exact .inr (.inr h)

/-- The strict order of addresses. -/
abbrev Rising (l : List (Nat × α)) : Prop := l.Pairwise fun p q => p.1 < q.1

theorem rising_listDrop {a : Nat} {l : List (Nat × α)} (h : Rising l) : Rising (listDrop a l) := by
  induction l with
  | nil => exact h
  | cons q t ih =>
    obtain ⟨k, w⟩ := q
    obtain ⟨h1, h2⟩ := List.pairwise_cons.1 h
    by_cases hk : k = a
    · simpa [listDrop, hk] using ih h2
    · simp only [listDrop, hk, ↓reduceIte]
      exact List.pairwise_cons.2 ⟨fun p hp => h1 p (mem_listDrop.1 hp).1, ih h2⟩

theorem rising_listPut {a : Nat} {v : α} {l : List (Nat × α)} (h : Rising l) : Rising (listPut a v l) := by
  induction l with
  | nil => simp [listPut]
  | cons q t ih =>
    obtain ⟨k, w⟩ := q
    obtain ⟨h1, h2⟩ := List.pairwise_cons.1 h
    by_cases hlt : a < k
    · simp only [listPut, hlt, ↓reduceIte]
      refine List.pairwise_cons.2 ⟨?_, h⟩
      intro p hp
      rcases List.mem_cons.1 hp with rfl | hp
      · exact hlt
      · exact lt_trans hlt (h1 p hp)
    · by_cases heq : a = k
      · simp only [listPut, heq, lt_irrefl, ↓reduceIte]
        exact List.pairwise_cons.2 ⟨h1, h2⟩
      · simp only [listPut, hlt, heq, ↓reduceIte]
        refine List.pairwise_cons.2 ⟨?_, ih h2⟩
        intro p hp
        rcases mem_listPut hp with rfl | hp
        · show k < a
          omega
        · exact h1 p hp

theorem listGet_of_mem {l : List (Nat × α)} (h : Rising l) {p : Nat × α} (hp : p ∈ l) : listGet p.1 l = some p.2 := by
  induction l with
  | nil => cases hp
  | cons q t ih =>
    obtain ⟨h1, h2⟩ := List.pairwise_cons.1 h
    rcases List.mem_cons.1 hp with rfl | hp
    · simp [listGet]
    · have hlt := h1 p hp
      obtain ⟨k, w⟩ := q
      have hk : ¬ k = p.1 := by simp only at hlt; omega
      simpa [listGet, hk] using ih h2 ‹p ∈ t›

theorem mem_of_listGet {l : List (Nat × α)} {a : Nat} {v : α} (h : listGet a l = some v) : (a, v) ∈ l := by
  induction l with
  | nil => simp [listGet] at h
  | cons q t ih =>
    obtain ⟨k, w⟩ := q
    by_cases hk : k = a
    · simp [listGet, hk] at h; simp [hk, h]
    · simp only [listGet, hk, ↓reduceIte] at h
      exact List.mem_cons_of_mem _ (ih h)

/-- Two rising lists that list the same value for every address are the same list. -/
theorem eq_of_listGet_eq {l m : List (Nat × α)} (hl : Rising l) (hm : Rising m)
    (h : ∀ a, listGet a l = listGet a m) : l = m := by
  have irr : ∀ {l : List (Nat × α)}, Rising l → l.Nodup := fun h =>
    h.imp fun hlt he => by simp [he] at hlt
  refine List.Perm.eq_of_pairwise (le := fun p q => p.1 < q.1) ?_ hl hm ?_
  · intro p q _ _ h1 h2; omega
  · rw [List.perm_ext_iff_of_nodup (irr hl) (irr hm)]
    intro p
    constructor
    · intro hp; exact mem_of_listGet (by rw [← h]; exact listGet_of_mem hl hp)
    · intro hp; exact mem_of_listGet (by rw [h]; exact listGet_of_mem hm hp)

end Lists

@[simp] theorem Memory.read_write_same (m : Memory) (a : Nat) (v : Byte) : (m.write a v).read a = v := by
  by_cases h : v = 0#8
  · simp [Memory.read, Memory.write, h, listGet_listDrop_same]
  · simp [Memory.read, Memory.write, h, listGet_listDrop_same, listGet_listPut_same]

theorem Memory.read_write_other {a b : Nat} (h : b ≠ a) (m : Memory) (v : Byte) :
    (m.write a v).read b = m.read b := by
  by_cases hv : v = 0#8
  · simp [Memory.read, Memory.write, hv, listGet_listDrop_other h]
  · simp [Memory.read, Memory.write, hv, listGet_listDrop_other h, listGet_listPut_other h]

@[simp] theorem Memory.read_forget_same (m : Memory) (a k : Nat) : (m.forget a k).read a = Config.freeByte k := by
  simp [Memory.read, Memory.forget, listGet_listPut_same]

theorem Memory.read_forget_other {a b : Nat} (h : b ≠ a) (m : Memory) (k : Nat) :
    (m.forget a k).read b = m.read b := by
  simp [Memory.read, Memory.forget, listGet_listPut_other h, listGet_listDrop_other h]

/-- A run of writes leaves every element outside the run alone. -/
theorem Memory.read_writeBytes_outside (bs : List Byte) (m : Memory) {a b : Nat}
    (h : b < a ∨ a + bs.length ≤ b) : (m.writeBytes a bs).read b = m.read b := by
  induction bs generalizing m a with
  | nil => rfl
  | cons v vs ih =>
    simp only [List.length_cons] at h
    rw [Memory.writeBytes, ih _ (by omega), Memory.read_write_other (by omega)]

/-- A run of writes reads back element by element. -/
theorem Memory.read_writeBytes_inside (bs : List Byte) (m : Memory) (a : Nat) {k : Nat} (h : k < bs.length) :
    (m.writeBytes a bs).read (a + k) = bs[k] := by
  induction bs generalizing m a k with
  | nil => simp at h
  | cons v vs ih =>
    cases k with
    | zero =>
      rw [Memory.writeBytes, Nat.add_zero, Memory.read_writeBytes_outside vs _ (by omega)]
      simp
    | succ k =>
      have := ih (m.write a v) (a + 1) (k := k) (by simpa using h)
      simpa [Memory.writeBytes, Nat.add_assoc, Nat.add_comm 1] using this

theorem Memory.writeBytes_append (bs cs : List Byte) (m : Memory) (a : Nat) :
    m.writeBytes a (bs ++ cs) = (m.writeBytes a bs).writeBytes (a + bs.length) cs := by
  induction bs generalizing m a with
  | nil => rfl
  | cons v vs ih => simp [Memory.writeBytes, ih, Nat.add_assoc, Nat.add_comm 1]

theorem Memory.read_forgetBytes_outside (n : Nat) (m : Memory) {a b k : Nat} (h : b < a ∨ a + n ≤ b) :
    (m.forgetBytes a k n).read b = m.read b := by
  induction n generalizing m a k with
  | zero => rfl
  | succ n ih => rw [Memory.forgetBytes, ih _ (by omega), Memory.read_forget_other (by omega)]

theorem Memory.read_forgetBytes_inside (n : Nat) (m : Memory) (a k : Nat) {j : Nat} (h : j < n) :
    (m.forgetBytes a k n).read (a + j) = Config.freeByte (k + j) := by
  induction n generalizing m a k j with
  | zero => omega
  | succ n ih =>
    cases j with
    | zero =>
      rw [Memory.forgetBytes, Nat.add_zero, Memory.read_forgetBytes_outside n _ (by omega)]
      simp
    | succ j =>
      have := ih (m.forget a k) (a + 1) (k + 1) (j := j) (by omega)
      rw [Memory.forgetBytes, show a + (j + 1) = a + 1 + j by omega, this, show k + 1 + j = k + (j + 1) by omega]

@[simp] theorem Memory.length_readBytes (m : Memory) (n a : Nat) : (m.readBytes a n).length = n := by
  induction n generalizing a with
  | zero => rfl
  | succ n ih => simp [Memory.readBytes, ih]

theorem Memory.getElem_readBytes (m : Memory) {n a k : Nat} (h : k < (m.readBytes a n).length) :
    (m.readBytes a n)[k] = m.read (a + k) := by
  induction n generalizing a k with
  | zero => simp [Memory.readBytes] at h
  | succ n ih =>
    cases k with
    | zero => simp [Memory.readBytes]
    | succ k => simp [Memory.readBytes, ih, Nat.add_assoc, Nat.add_comm 1]

/-- Two memories that agree on a run read it as the same list. -/
theorem Memory.readBytes_congr {m m' : Memory} {n a : Nat} (h : ∀ k < n, m'.read (a + k) = m.read (a + k)) :
    m'.readBytes a n = m.readBytes a n := by
  apply List.ext_getElem
  · simp
  · intro k h1 h2
    simp only [Memory.length_readBytes] at h1
    rw [Memory.getElem_readBytes, Memory.getElem_readBytes, h k h1]

theorem Memory.wf_empty : Memory.wf ⟨[], []⟩ := by decide

/-- A write keeps the canonical form. -/
theorem Memory.wf_write {m : Memory} (h : m.wf) (a : Nat) (v : Byte) : (m.write a v).wf := by
  obtain ⟨h1, h2, h3, h4⟩ := h
  by_cases hv : v = 0#8
  · refine ⟨by simpa [Memory.write, hv] using rising_listDrop h1, rising_listDrop h2, ?_, ?_⟩
    · intro p hp
      simp only [Memory.write, hv, ↓reduceIte] at hp
      exact h3 p (mem_listDrop.1 hp).1
    · intro p hp q hq
      simp only [Memory.write, hv, ↓reduceIte] at hp hq
      exact h4 p (mem_listDrop.1 hp).1 q (mem_listDrop.1 hq).1
  · refine ⟨by simpa [Memory.write, hv] using rising_listPut h1, rising_listDrop h2, ?_, ?_⟩
    · intro p hp
      simp only [Memory.write, hv, ↓reduceIte] at hp
      rcases mem_listPut hp with rfl | hp
      · exact hv
      · exact h3 p hp
    · intro p hp q hq
      simp only [Memory.write, hv, ↓reduceIte] at hp hq
      rcases mem_listPut hp with rfl | hp
      · exact (mem_listDrop.1 hq).2.symm
      · exact h4 p hp q (mem_listDrop.1 hq).1

/-- Leaving an element unspecified keeps the canonical form. -/
theorem Memory.wf_forget {m : Memory} (h : m.wf) (a k : Nat) : (m.forget a k).wf := by
  obtain ⟨h1, h2, h3, h4⟩ := h
  refine ⟨rising_listDrop h1, rising_listPut h2, fun p hp => h3 p (mem_listDrop.1 hp).1, ?_⟩
  intro p hp q hq
  obtain ⟨hp, hne⟩ := mem_listDrop.1 hp
  rcases mem_listPut hq with rfl | hq
  · exact hne
  · exact h4 p hp q hq

theorem Memory.wf_writeBytes (bs : List Byte) {m : Memory} (h : m.wf) (a : Nat) : (m.writeBytes a bs).wf := by
  induction bs generalizing m a with
  | nil => exact h
  | cons v vs ih => exact ih (Memory.wf_write h a v) (a + 1)

theorem Memory.wf_forgetBytes (n : Nat) {m : Memory} (h : m.wf) (a k : Nat) : (m.forgetBytes a k n).wf := by
  induction n generalizing m a k with
  | zero => exact h
  | succ n ih => exact ih (Memory.wf_forget h a k) (a + 1) (k + 1)

end Sys2Proof.Machine
end

