-- ==== Sys2Proof/Laws/State.lean ====
section
/-! SUPPORT. What each named update of the state leaves in each field, so that no proof unfolds a record update. -/

namespace Sys2Proof.Machine

variable {w : Nat}

section StartTransition
variable (op : BitVec 2) (n : Nat) (s : State w)
@[simp] theorem startTransition_op : (startTransition op n s).op = op := rfl
@[simp] theorem startTransition_len : (startTransition op n s).len = BitVec.ofNat w n := rfl
@[simp] theorem startTransition_acc : (startTransition op n s).acc = 0#24 := rfl
@[simp] theorem startTransition_pos : (startTransition op n s).pos = initialPos op s.pos := rfl
@[simp] theorem startTransition_endMark : (startTransition op n s).endMark = 0#2 := rfl
@[simp] theorem startTransition_si : (startTransition op n s).si = 0#w := rfl
@[simp] theorem startTransition_di : (startTransition op n s).di = 0#w := rfl
@[simp] theorem startTransition_phase : (startTransition op n s).phase = .run := rfl
@[simp] theorem startTransition_fail : (startTransition op n s).fail = s.fail := rfl
@[simp] theorem startTransition_result : (startTransition op n s).result = s.result := rfl
@[simp] theorem startTransition_bufs : (startTransition op n s).bufs = s.bufs := rfl
@[simp] theorem startTransition_mem : (startTransition op n s).mem = s.mem := rfl
@[simp] theorem startTransition_fresh : (startTransition op n s).fresh = s.fresh := rfl
@[simp] theorem startTransition_inbox : (startTransition op n s).inbox = s.inbox := rfl
end StartTransition

section TakeDone
variable (n : Word w) (s : State w)
@[simp] theorem takeDone_op : (takeDone n s).op = s.op := rfl
@[simp] theorem takeDone_len : (takeDone n s).len = s.len := rfl
@[simp] theorem takeDone_acc : (takeDone n s).acc = s.acc := rfl
@[simp] theorem takeDone_pos : (takeDone n s).pos = s.pos := rfl
@[simp] theorem takeDone_endMark : (takeDone n s).endMark = s.endMark := rfl
@[simp] theorem takeDone_si : (takeDone n s).si = s.si := rfl
@[simp] theorem takeDone_di : (takeDone n s).di = s.di := rfl
@[simp] theorem takeDone_phase : (takeDone n s).phase = .done := rfl
@[simp] theorem takeDone_fail : (takeDone n s).fail = false := rfl
@[simp] theorem takeDone_result : (takeDone n s).result = n := rfl
@[simp] theorem takeDone_bufs : (takeDone n s).bufs = s.bufs := rfl
@[simp] theorem takeDone_mem : (takeDone n s).mem = s.mem := rfl
@[simp] theorem takeDone_fresh : (takeDone n s).fresh = s.fresh := rfl
@[simp] theorem takeDone_inbox : (takeDone n s).inbox = s.inbox := rfl
end TakeDone

section LoseDst
variable (s : State w)
@[simp] theorem loseDst_op : (loseDst s).op = s.op := rfl
@[simp] theorem loseDst_len : (loseDst s).len = s.len := rfl
@[simp] theorem loseDst_acc : (loseDst s).acc = s.acc := rfl
@[simp] theorem loseDst_pos : (loseDst s).pos = s.pos := rfl
@[simp] theorem loseDst_endMark : (loseDst s).endMark = s.endMark := rfl
@[simp] theorem loseDst_si : (loseDst s).si = s.si := rfl
@[simp] theorem loseDst_di : (loseDst s).di = s.di := rfl
@[simp] theorem loseDst_phase : (loseDst s).phase = s.phase := rfl
@[simp] theorem loseDst_fail : (loseDst s).fail = s.fail := rfl
@[simp] theorem loseDst_result : (loseDst s).result = s.result := rfl
@[simp] theorem loseDst_bufs : (loseDst s).bufs = s.bufs := rfl
@[simp] theorem loseDst_mem : (loseDst s).mem = s.mem.forgetBytes s.bufs.dst s.fresh s.bufs.dcap := rfl
@[simp] theorem loseDst_fresh : (loseDst s).fresh = s.fresh + s.bufs.dcap := rfl
@[simp] theorem loseDst_inbox : (loseDst s).inbox = s.inbox := rfl
end LoseDst

section TakeFail
variable (c : FailCause) (s : State w)
@[simp] theorem takeFail_op : (takeFail c s).op = s.op := rfl
@[simp] theorem takeFail_len : (takeFail c s).len = s.len := rfl
@[simp] theorem takeFail_acc : (takeFail c s).acc = s.acc := rfl
@[simp] theorem takeFail_pos : (takeFail c s).pos = s.pos := rfl
@[simp] theorem takeFail_endMark : (takeFail c s).endMark = s.endMark := rfl
@[simp] theorem takeFail_si : (takeFail c s).si = s.si := rfl
@[simp] theorem takeFail_di : (takeFail c s).di = s.di := rfl
@[simp] theorem takeFail_phase : (takeFail c s).phase = .done := rfl
@[simp] theorem takeFail_fail : (takeFail c s).fail = true := rfl
@[simp] theorem takeFail_result : (takeFail c s).result = Config.failVal := rfl
@[simp] theorem takeFail_bufs : (takeFail c s).bufs = s.bufs := rfl
@[simp] theorem takeFail_mem : (takeFail c s).mem = s.mem.forgetBytes s.bufs.dst s.fresh s.bufs.dcap := rfl
@[simp] theorem takeFail_fresh : (takeFail c s).fresh = s.fresh + s.bufs.dcap := rfl
@[simp] theorem takeFail_inbox : (takeFail c s).inbox = s.inbox := rfl
end TakeFail

section PowerReset
variable (s : State w)
@[simp] theorem powerReset_op : (powerReset s).op = 0 := rfl
@[simp] theorem powerReset_len : (powerReset s).len = 0 := rfl
@[simp] theorem powerReset_acc : (powerReset s).acc = 0 := rfl
@[simp] theorem powerReset_pos : (powerReset s).pos = 0 := rfl
@[simp] theorem powerReset_endMark : (powerReset s).endMark = 0 := rfl
@[simp] theorem powerReset_si : (powerReset s).si = 0 := rfl
@[simp] theorem powerReset_di : (powerReset s).di = 0 := rfl
@[simp] theorem powerReset_phase : (powerReset s).phase = .idle := rfl
@[simp] theorem powerReset_fail : (powerReset s).fail = false := rfl
@[simp] theorem powerReset_result : (powerReset s).result = 0 := rfl
@[simp] theorem powerReset_bufs : (powerReset s).bufs = s.bufs := by simp only [powerReset]; split <;> rfl
@[simp] theorem powerReset_mem :
    (powerReset s).mem = if s.phase = .run then (loseDst s).mem else s.mem := by simp only [powerReset]; split <;> rfl
@[simp] theorem powerReset_fresh :
    (powerReset s).fresh = if s.phase = .run then s.fresh + s.bufs.dcap else s.fresh := by
  simp only [powerReset]; split <;> rfl
@[simp] theorem powerReset_inbox : (powerReset s).inbox = s.inbox := by simp only [powerReset]; split <;> rfl
end PowerReset

section Attach
variable (b : Buffers) (s : State w)
@[simp] theorem attach_op : (attach b s).op = s.op := rfl
@[simp] theorem attach_len : (attach b s).len = s.len := rfl
@[simp] theorem attach_acc : (attach b s).acc = s.acc := rfl
@[simp] theorem attach_pos : (attach b s).pos = s.pos := rfl
@[simp] theorem attach_endMark : (attach b s).endMark = s.endMark := rfl
@[simp] theorem attach_si : (attach b s).si = s.si := rfl
@[simp] theorem attach_di : (attach b s).di = s.di := rfl
@[simp] theorem attach_phase : (attach b s).phase = s.phase := rfl
@[simp] theorem attach_fail : (attach b s).fail = s.fail := rfl
@[simp] theorem attach_result : (attach b s).result = s.result := rfl
@[simp] theorem attach_bufs : (attach b s).bufs = b := rfl
@[simp] theorem attach_mem : (attach b s).mem = s.mem := rfl
@[simp] theorem attach_fresh : (attach b s).fresh = s.fresh := rfl
@[simp] theorem attach_inbox : (attach b s).inbox = s.inbox := rfl
end Attach

section WithMem
variable (s : State w) (m : Memory)
@[simp] theorem State.withMem_op : (s.withMem m).op = s.op := rfl
@[simp] theorem State.withMem_len : (s.withMem m).len = s.len := rfl
@[simp] theorem State.withMem_acc : (s.withMem m).acc = s.acc := rfl
@[simp] theorem State.withMem_pos : (s.withMem m).pos = s.pos := rfl
@[simp] theorem State.withMem_endMark : (s.withMem m).endMark = s.endMark := rfl
@[simp] theorem State.withMem_si : (s.withMem m).si = s.si := rfl
@[simp] theorem State.withMem_di : (s.withMem m).di = s.di := rfl
@[simp] theorem State.withMem_phase : (s.withMem m).phase = s.phase := rfl
@[simp] theorem State.withMem_fail : (s.withMem m).fail = s.fail := rfl
@[simp] theorem State.withMem_result : (s.withMem m).result = s.result := rfl
@[simp] theorem State.withMem_bufs : (s.withMem m).bufs = s.bufs := rfl
@[simp] theorem State.withMem_mem : (s.withMem m).mem = m := rfl
@[simp] theorem State.withMem_fresh : (s.withMem m).fresh = s.fresh := rfl
@[simp] theorem State.withMem_inbox : (s.withMem m).inbox = s.inbox := rfl
end WithMem

end Sys2Proof.Machine
end

