-- ==== Sys2Proof/Laws/Ops.lean ====
section
/-! SUPPORT. One specification for each shared operation, cited instead of unfolding it. -/

namespace Sys2Proof.Machine

variable {w : Nat}

@[simp] theorem andThen_next (s : State w) (f : State w → Result w) : andThen (.next s) f = f s := rfl
@[simp] theorem andThen_fault (r : Fault) (f : State w → Result w) : andThen (.fault r) f = .fault r := rfl
@[simp] theorem andThen_refused (r : Refusal) (f : State w → Result w) : andThen (.refused r) f = .refused r := rfl

/-- What `andThen` can answer with a next state. -/
theorem andThen_eq_next {o : Result w} {f : State w → Result w} {t : State w} (h : andThen o f = .next t) :
    ∃ s, o = .next s ∧ f s = .next t := by
  cases o with
  | next s => exact ⟨s, rfl, h⟩
  | fault r => simp at h
  | refused r => simp at h

/-- An index that has room counts up as a natural number (R108). -/
theorem toNat_succ {i : Word w} (h : i.toNat + 1 < 2 ^ w) : (i + 1#w).toNat = i.toNat + 1 := by
  rw [BitVec.toNat_add, BitVec.toNat_ofNat, Nat.add_mod_mod]
  exact Nat.mod_eq_of_lt h

theorem two_pow_pred_le : 2 ^ (w - 1) ≤ 2 ^ w := Nat.pow_le_pow_right (by decide) (Nat.sub_le w 1)

/-- A length within the bound is held without loss (R108). -/
theorem toNat_ofNat_of_admitted {n : Nat} (h : n < 2 ^ (w - 1)) : (BitVec.ofNat w n).toNat = n := by
  rw [BitVec.toNat_ofNat]
  exact Nat.mod_eq_of_lt (lt_of_lt_of_le h two_pow_pred_le)

/-- Where a length has a bit the bound is half of what it holds. -/
theorem two_pow_eq (h : 0 < w) : 2 ^ w = 2 * 2 ^ (w - 1) := by
  rw [← Nat.pow_succ', Nat.succ_eq_add_one, Nat.sub_add_cancel h]

/-- R9, R108: a value within the bound is not `FAILVAL`. -/
theorem ne_failVal_of_admitted (hw : 0 < w) {x : Word w} (h : x.toNat < 2 ^ (w - 1)) : x ≠ Config.failVal := by
  rintro rfl
  have := two_pow_eq hw
  simp [Config.failVal] at h
  omega

/-- The writes of one flush, all in range: consecutive elements of `DST` from `DI` on, and `DI` past them. -/
theorem emitAll_next (bs : List Byte) (s : State w) (h : s.di.toNat + bs.length ≤ s.bufs.dcap)
    (hw : s.di.toNat + bs.length < 2 ^ w) :
    emitAll bs s =
      .next { s with
        mem := s.mem.writeBytes (s.bufs.dst + s.di.toNat) bs
        di := s.di + BitVec.ofNat w bs.length } := by
  induction bs generalizing s with
  | nil => simp [emitAll, Memory.writeBytes]
  | cons v vs ih =>
    simp only [List.length_cons] at h hw
    have h1 : (s.di + 1#w).toNat = s.di.toNat + 1 := toNat_succ (by omega)
    rw [emitAll, emit, if_pos (by omega), andThen_next]
    rw [ih _ (by simp [h1]; omega) (by simp [h1]; omega)]
    have h2 : s.di + 1#w + BitVec.ofNat w vs.length = s.di + BitVec.ofNat w (vs.length + 1) := by
      rw [BitVec.add_assoc]
      congr 1
      rw [Nat.add_comm, BitVec.ofNat_add]
    simp [Memory.writeBytes, h1, h2, Nat.add_assoc]

/-- The writes of one flush, the last of them beyond `DCAP`: `DstOverrun`. -/
theorem emitAll_fault (bs : List Byte) (s : State w) (h : s.bufs.dcap < s.di.toNat + bs.length)
    (hw : s.di.toNat + bs.length < 2 ^ w) (hne : bs ≠ []) :
    emitAll bs s = .fault .dstOverrun := by
  induction bs generalizing s with
  | nil => exact absurd rfl hne
  | cons v vs ih =>
    simp only [List.length_cons] at h hw
    have h1 : (s.di + 1#w).toNat = s.di.toNat + 1 := toNat_succ (by omega)
    rw [emitAll, emit]
    by_cases hd : s.di.toNat < s.bufs.dcap
    · rw [if_pos hd, andThen_next]
      refine ih _ (by simp [h1]; omega) (by simp [h1]; omega) ?_
      rintro rfl
      simp at h; omega
    · rw [if_neg hd, andThen_fault]

/-- Whatever a flush answers with a next state, only memory inside `DST` and `DI` have changed. -/
theorem emitAll_frame {bs : List Byte} {s t : State w} (h : emitAll bs s = .next t) :
    t = { s with mem := t.mem, di := t.di } ∧
      (∀ a, s.inDst a = false → t.mem.read a = s.mem.read a) ∧ (s.mem.wf → t.mem.wf) := by
  induction bs generalizing s with
  | nil => simp [emitAll] at h; subst h; simp
  | cons v vs ih =>
    rw [emitAll] at h
    obtain ⟨u, hu, ht⟩ := andThen_eq_next h
    rw [emit] at hu
    split at hu
    · rename_i hd
      simp only [Host.Outcome.next.injEq] at hu
      subst hu
      obtain ⟨h1, h2, h3⟩ := ih ht
      refine ⟨h1, fun a ha => ?_, fun hm => h3 (Memory.wf_write hm _ _)⟩
      rw [h2 a ha]
      refine Memory.read_write_other ?_ _ _
      rintro rfl
      simp [State.inDst] at ha
      omega
    · simp at hu

/-- When a command is given a meaning, in the words of the host's duties. -/
theorem startRefusal_eq_none {op : BitVec 2} {n : Nat} {s : State w} :
    startRefusal op n s = none ↔ CanStart op n s := by
  have hA : admitted w op n = true ↔ n < 2 ^ (w - 1) ∧ estimate op n < 2 ^ (w - 1) := by
    simp [admitted]
  have hB : s.busy = true ↔ s.phase = .run := by simp [State.busy]
  unfold startRefusal CanStart
  rw [ne_eq, ← hB, ← and_assoc (a := n < _), ← hA]
  cases s.busy <;> cases admitted w op n <;> cases isTransform op <;> cases s.bufs.overlap n <;> simp

theorem beginOp_of_canStart {op : BitVec 2} {n : Nat} {s : State w} (h : CanStart op n s) :
    beginOp op n s = .next (startTransition op n s) := by
  rw [beginOp, startRefusal_eq_none.2 h]

/-- What starting an operation can answer with a next state. -/
theorem beginOp_eq_next {op : BitVec 2} {n : Nat} {s t : State w} (h : beginOp op n s = .next t) :
    CanStart op n s ∧ t = startTransition op n s := by
  unfold beginOp at h
  split at h
  · simp at h
  · rename_i hn
    simp only [Host.Outcome.next.injEq] at h
    exact ⟨startRefusal_eq_none.1 hn, h.symm⟩

theorem beginOp_ne_fault (op : BitVec 2) (n : Nat) (s : State w) (r : Fault) : beginOp op n s ≠ .fault r := by
  unfold beginOp
  split <;> simp

/-- Losing the destination touches nothing outside it. -/
theorem loseDst_read_outside (s : State w) {a : Nat} (h : OutsideDst s s.bufs.dcap a) :
    (loseDst s).mem.read a = s.mem.read a :=
  Memory.read_forgetBytes_outside _ _ h

/-- Inside the destination every element reads as a free value of its own. -/
theorem loseDst_read_inside (s : State w) {k : Nat} (h : k < s.bufs.dcap) :
    (loseDst s).mem.read (s.bufs.dst + k) = Config.freeByte (s.fresh + k) :=
  Memory.read_forgetBytes_inside _ _ _ _ h

@[simp] theorem runToDone_zero (f : State w → Result w) (s : State w) : runToDone f 0 s = .next s := rfl

theorem runToDone_run {f : State w → Result w} {k : Nat} {s : State w} (h : s.phase = .run) :
    runToDone f (k + 1) s = andThen (f s) (runToDone f k) := by
  simp [runToDone, h]

theorem runToDone_stop {f : State w → Result w} {k : Nat} {s : State w} (h : s.phase ≠ .run) :
    runToDone f k s = .next s := by
  cases k <;> simp [runToDone, h]

/-- An invariant that the engine's step keeps while `PHASE = RUN` holds at the end of the operation. -/
theorem runToDone_induct {f : State w → Result w} {P : State w → Prop}
    (hf : ∀ s t, s.phase = .run → P s → f s = .next t → P t) :
    ∀ {k : Nat} {s t : State w}, P s → runToDone f k s = .next t → P t := by
  intro k
  induction k with
  | zero =>
    intro s t hs h
    simp only [runToDone_zero, Host.Outcome.next.injEq] at h
    exact h ▸ hs
  | succ k ih =>
    intro s t hs h
    by_cases hp : s.phase = .run
    · rw [runToDone_run hp] at h
      obtain ⟨u, hu, ht⟩ := andThen_eq_next h
      exact ih (hf s u hp hs hu) ht
    · rw [runToDone_stop hp, Host.Outcome.next.injEq] at h
      exact h ▸ hs

end Sys2Proof.Machine
end

