-- ==== Sys2Proof/Laws/Group.lean ====
section
/-! SUPPORT. The 24-bit group (spec/30_encoding.md R52 to R54): the shift and mask forms as bit slices, and how values and
bytes stand in it. -/

namespace Sys2Proof.Machine

theorem append_toNat {m n : Nat} (x : BitVec m) (y : BitVec n) : (x ++ y).toNat = x.toNat * 2 ^ n + y.toNat := by
  rw [BitVec.toNat_append, Nat.shiftLeft_eq, Nat.mul_comm, Nat.two_pow_add_eq_or_of_lt y.isLt]

theorem slice_toNat {w : Nat} (x : BitVec w) (i k : Nat) : (x.extractLsb' i k).toNat = x.toNat / 2 ^ i % 2 ^ k := by
  rw [BitVec.extractLsb'_toNat, Nat.shiftRight_eq_div_pow]

/-- R53: a field of the group is a slice of it. -/
theorem field_eq (a : Group) (sh : Nat) : field a sh = a.extractLsb' sh 6 := by
  apply BitVec.eq_of_toNat_eq
  rw [field, BitVec.toNat_setWidth, BitVec.toNat_and, BitVec.toNat_ushiftRight, BitVec.extractLsb'_toNat]
  show (a.toNat >>> sh &&& 63) % 64 = a.toNat >>> sh % 64
  rw [show 63 = 2 ^ 6 - 1 from rfl, Nat.and_two_pow_sub_one_eq_mod]
  omega

/-- R54: a byte of the group is a slice of it. -/
theorem groupByte_eq (a : Group) (sh : Nat) : groupByte a sh = a.extractLsb' sh 8 := by
  apply BitVec.eq_of_toNat_eq
  rw [groupByte, BitVec.toNat_setWidth, BitVec.toNat_and, BitVec.toNat_ushiftRight, BitVec.extractLsb'_toNat]
  show (a.toNat >>> sh &&& 255) % 256 = a.toNat >>> sh % 256
  rw [show 255 = 2 ^ 8 - 1 from rfl, Nat.and_two_pow_sub_one_eq_mod]
  omega

/-- R89: while fewer than four values are in, a value shifted in loses nothing. -/
theorem shiftIn_toNat {g : Group} (v : SymVal) (h : g.toNat < 2 ^ 18) :
    (shiftIn g v).toNat = g.toNat * 64 + v.toNat := by
  have := v.isLt
  simp [shiftIn, BitVec.toNat_add, Nat.shiftLeft_eq]
  omega

/-- R89, R52: four values shifted in stand side by side, the first one highest. -/
theorem shiftIn_four (a b c d : SymVal) :
    shiftIn (shiftIn (shiftIn (shiftIn 0#24 a) b) c) d = a ++ b ++ c ++ d := by
  have ha := a.isLt
  have hb := b.isLt
  have hc := c.isLt
  have hd := d.isLt
  have e1 := shiftIn_toNat (g := 0#24) a (by simp)
  have e2 := shiftIn_toNat b (g := shiftIn 0#24 a) (by rw [e1]; simp; omega)
  have e3 := shiftIn_toNat c (g := shiftIn (shiftIn 0#24 a) b) (by rw [e2, e1]; simp; omega)
  have e4 := shiftIn_toNat d (g := shiftIn (shiftIn (shiftIn 0#24 a) b) c) (by rw [e3, e2, e1]; simp; omega)
  apply BitVec.eq_of_toNat_eq
  rw [e4, e3, e2, e1]
  show _ = (a ++ b ++ c ++ d : BitVec (6 + 6 + 6 + 6)).toNat
  rw [append_toNat, append_toNat, append_toNat]
  simp

/-- R52: the three bytes of four values side by side. -/
theorem groupBytes_append (a b c d : SymVal) :
    groupBytes (a ++ b ++ c ++ d) =
      [a ++ b.extractLsb' 4 2, b.extractLsb' 0 4 ++ c.extractLsb' 2 4, c.extractLsb' 0 2 ++ d] := by
  have ha := a.isLt
  have hb := b.isLt
  have hc := c.isLt
  have hd := d.isLt
  have hg : (a ++ b ++ c ++ d : Group).toNat =
      a.toNat * 262144 + b.toNat * 4096 + c.toNat * 64 + d.toNat := by
    show (a ++ b ++ c ++ d : BitVec (6 + 6 + 6 + 6)).toNat = _
    rw [append_toNat, append_toNat, append_toNat]
    omega
  simp only [groupBytes, List.cons.injEq, and_true]
  refine ⟨?_, ?_, ?_⟩ <;> apply BitVec.eq_of_toNat_eq <;> rw [slice_toNat, hg]
  · show _ = (a ++ b.extractLsb' 4 2 : BitVec (6 + 2)).toNat
    rw [append_toNat, slice_toNat]
    omega
  · show _ = (b.extractLsb' 0 4 ++ c.extractLsb' 2 4 : BitVec (4 + 4)).toNat
    rw [append_toNat, slice_toNat, slice_toNat]
    omega
  · show _ = (c.extractLsb' 0 2 ++ d : BitVec (2 + 6)).toNat
    rw [append_toNat, slice_toNat]
    omega

/-- R90: a decoder flush writes a prefix of the group's bytes, one, two or three of them. -/
theorem flushDec_eq_take (a : Group) {e : BitVec 2} (h : e ≠ 3#2) :
    flushDec a e = (groupBytes a).take (if e = 0#2 then 3 else e.toNat) := by
  have : e = 0#2 ∨ e = 1#2 ∨ e = 2#2 := by
    revert h
    generalize e = x
    revert x
    decide
  rcases this with rfl | rfl | rfl <;> simp [flushDec, groupByte_eq, groupBytes]

theorem flushDec_ne_nil (a : Group) (e : BitVec 2) : flushDec a e ≠ [] := by simp [flushDec]

theorem flushDec_length (a : Group) (e : BitVec 2) :
    (flushDec a e).length = if e = 0#2 then 3 else if e = 1#2 then 1 else 2 := by
  unfold flushDec
  by_cases h0 : e = 0#2
  · simp [h0]
  · by_cases h1 : e = 1#2 <;> simp [h0, h1]

/-- R52, R53: the three bytes of a group in their lanes flush to the unit of three bytes. -/
theorem flush4_lanes (x y z : Byte) : flush4 (lane x 2#2 ||| lane y 1#2 ||| lane z 0#2) = unit3 x y z := by
  have h1 : field (lane x 2#2 ||| lane y 1#2 ||| lane z 0#2) 18 = x.extractLsb' 2 6 := by
    apply BitVec.eq_of_getLsbD_eq
    intro i hi
    rcases (show i = 0 ∨ i = 1 ∨ i = 2 ∨ i = 3 ∨ i = 4 ∨ i = 5 by omega) with rfl | rfl | rfl | rfl | rfl | rfl <;>
      simp [field, lane]
  have h2 : field (lane x 2#2 ||| lane y 1#2 ||| lane z 0#2) 12 = x.extractLsb' 0 2 ++ y.extractLsb' 4 4 := by
    apply BitVec.eq_of_getLsbD_eq
    intro i hi
    rw [BitVec.getLsbD_append]
    rcases (show i = 0 ∨ i = 1 ∨ i = 2 ∨ i = 3 ∨ i = 4 ∨ i = 5 by omega) with rfl | rfl | rfl | rfl | rfl | rfl <;>
      simp [field, lane]
  have h3 : field (lane x 2#2 ||| lane y 1#2 ||| lane z 0#2) 6 = y.extractLsb' 0 4 ++ z.extractLsb' 6 2 := by
    apply BitVec.eq_of_getLsbD_eq
    intro i hi
    rw [BitVec.getLsbD_append]
    rcases (show i = 0 ∨ i = 1 ∨ i = 2 ∨ i = 3 ∨ i = 4 ∨ i = 5 by omega) with rfl | rfl | rfl | rfl | rfl | rfl <;>
      simp [field, lane]
  have h4 : field (lane x 2#2 ||| lane y 1#2 ||| lane z 0#2) 0 = z.extractLsb' 0 6 := by
    apply BitVec.eq_of_getLsbD_eq
    intro i hi
    rcases (show i = 0 ∨ i = 1 ∨ i = 2 ∨ i = 3 ∨ i = 4 ∨ i = 5 by omega) with rfl | rfl | rfl | rfl | rfl | rfl <;>
      simp [field, lane]
  rw [flush4, unit3, h1, h2, h3, h4]

/-- R77, R79: two leftover bytes in their lanes flush to the unit of two bytes. -/
theorem tail2_lanes (x y : Byte) : tail2 (lane x 2#2 ||| lane y 1#2) = unit2 x y := by
  have h1 : field (lane x 2#2 ||| lane y 1#2) 18 = x.extractLsb' 2 6 := by
    apply BitVec.eq_of_getLsbD_eq
    intro i hi
    rcases (show i = 0 ∨ i = 1 ∨ i = 2 ∨ i = 3 ∨ i = 4 ∨ i = 5 by omega) with rfl | rfl | rfl | rfl | rfl | rfl <;>
      simp [field, lane]
  have h2 : field (lane x 2#2 ||| lane y 1#2) 12 = x.extractLsb' 0 2 ++ y.extractLsb' 4 4 := by
    apply BitVec.eq_of_getLsbD_eq
    intro i hi
    rw [BitVec.getLsbD_append]
    rcases (show i = 0 ∨ i = 1 ∨ i = 2 ∨ i = 3 ∨ i = 4 ∨ i = 5 by omega) with rfl | rfl | rfl | rfl | rfl | rfl <;>
      simp [field, lane]
  have h3 : field (lane x 2#2 ||| lane y 1#2) 6 = y.extractLsb' 0 4 ++ 0#2 := by
    apply BitVec.eq_of_getLsbD_eq
    intro i hi
    rw [BitVec.getLsbD_append]
    rcases (show i = 0 ∨ i = 1 ∨ i = 2 ∨ i = 3 ∨ i = 4 ∨ i = 5 by omega) with rfl | rfl | rfl | rfl | rfl | rfl <;>
      simp [field, lane]
  rw [tail2, unit2, h1, h2, h3]

/-- R76, R79: one leftover byte in its lane flushes to the unit of one byte. -/
theorem tail1_lane (x : Byte) : tail1 (lane x 2#2) = unit1 x := by
  have h1 : field (lane x 2#2) 18 = x.extractLsb' 2 6 := by
    apply BitVec.eq_of_getLsbD_eq
    intro i hi
    rcases (show i = 0 ∨ i = 1 ∨ i = 2 ∨ i = 3 ∨ i = 4 ∨ i = 5 by omega) with rfl | rfl | rfl | rfl | rfl | rfl <;>
      simp [field, lane]
  have h2 : field (lane x 2#2) 12 = x.extractLsb' 0 2 ++ 0#4 := by
    apply BitVec.eq_of_getLsbD_eq
    intro i hi
    rw [BitVec.getLsbD_append]
    rcases (show i = 0 ∨ i = 1 ∨ i = 2 ∨ i = 3 ∨ i = 4 ∨ i = 5 by omega) with rfl | rfl | rfl | rfl | rfl | rfl <;>
      simp [field, lane]
  rw [tail1, unit1, h1, h2]

end Sys2Proof.Machine
end

