-- ==== Sys2Proof/Laws/PerInstr.lean ====
section
/-! SUPPORT. Statements made for every instruction, one lemma per constructor. -/

namespace Sys2Proof

/-- The `OP` field of a row's match value is the row's operation code (R46, R47). -/
theorem opField_opcodeRow (m : String) (op : BitVec 2) (w : Nat) : opField (opcodeRow m op w).matchBits = op := by
  apply BitVec.eq_of_toNat_eq
  have h : op.toNat * 2 ^ w < 2 ^ (w + 2) := by
    rw [Nat.pow_add, Nat.mul_comm]
    exact Nat.mul_lt_mul_of_pos_left op.isLt (Nat.two_pow_pos w)
  simp [opField, opcodeRow, Nat.mod_eq_of_lt h, Nat.shiftRight_eq_div_pow, Nat.mod_eq_of_lt op.isLt]

/-- The `LEN` field of a row's match value is zero (R46, R47). -/
theorem lenField_opcodeRow (m : String) (op : BitVec 2) (w : Nat) : lenField (opcodeRow m op w).matchBits = 0#w := by
  apply BitVec.eq_of_toNat_eq
  simp [lenField, opcodeRow, Nat.pow_add]

namespace Laws.OpcodeTable

/-- R46, R47: at every width the command's row of the opcode table, found by its mnemonic, matches the `OP` bits of its
word and has no bit of `LEN`; at the default width its mask is the one R47 prints. -/
def Statement (i : Instr) : Prop :=
  (∀ w, ∃ r ∈ opcodeRows w, r.mnemonic = mnemonicOf i ∧ opField r.matchBits = opOf i ∧ lenField r.matchBits = 0#w) ∧
    ∀ r ∈ opcodeRows, r.mask = 0x300000000#34

theorem of_mem {i : Instr} (h : ∀ w, opcodeRow (mnemonicOf i) (opOf i) w ∈ opcodeRows w) : Statement i :=
  ⟨fun w => ⟨_, h w, rfl, opField_opcodeRow .., lenField_opcodeRow ..⟩, by decide⟩

theorem b64enclen (len : Nat) : Statement (.b64enclen len) := of_mem fun _ => by simp [opcodeRows, mnemonicOf, opOf]

theorem b64declen (len : Nat) : Statement (.b64declen len) := of_mem fun _ => by simp [opcodeRows, mnemonicOf, opOf]

theorem b64enc (len : Nat) : Statement (.b64enc len) := of_mem fun _ => by simp [opcodeRows, mnemonicOf, opOf]

theorem b64dec (len : Nat) : Statement (.b64dec len) := of_mem fun _ => by simp [opcodeRows, mnemonicOf, opOf]

end Laws.OpcodeTable

end Sys2Proof
end

