-- ==== Sys2Proof/Laws/Steps.lean ====
section
/-! SUPPORT. What one step of the engine can do, what a command can be refused for, and how steps follow one another:
one inversion lemma per step function, cited instead of unfolding it. -/

namespace Sys2Proof.Machine

variable {w : Nat}

/-- What one step of the encoder can answer with a next state (R73 to R78). -/
theorem encStep_eq_next {s t : State w} (h : encStep s = .next t) :
    (s.si < s.len ∧ s.pos ≠ 0#2 ∧
      t = { s with si := s.si + 1, acc := s.acc ||| lane (readSrc s) s.pos, pos := s.pos - 1#2 }) ∨
    (s.si < s.len ∧ s.pos = 0#2 ∧ ∃ u,
      emitAll (flush4 (s.acc ||| lane (readSrc s) s.pos)) { s with si := s.si + 1 } = .next u ∧
        t = { u with acc := 0#24, pos := 2#2 }) ∨
    (s.si = s.len ∧ s.pos = 2#2 ∧ t = takeDone s.di s) ∨
    (s.si = s.len ∧ s.pos = 1#2 ∧ ∃ u, emitAll (tail1 s.acc) s = .next u ∧ t = takeDone u.di u) ∨
    (s.si = s.len ∧ s.pos = 0#2 ∧ ∃ u, emitAll (tail2 s.acc) s = .next u ∧ t = takeDone u.di u) := by
  rw [encStep] at h
  by_cases hlt : s.si < s.len
  · rw [if_pos hlt, encByte] at h
    simp only [] at h
    by_cases hp : s.pos = 0#2
    · rw [if_neg (by simpa using hp)] at h
      obtain ⟨u, hu, ht⟩ := andThen_eq_next h
      exact .inr (.inl ⟨hlt, hp, u, hu, (Host.Outcome.next.inj ht).symm⟩)
    · rw [if_pos hp] at h
      exact .inl ⟨hlt, hp, (Host.Outcome.next.inj h).symm⟩
  · rw [if_neg hlt] at h
    by_cases he : s.si = s.len
    · rw [if_pos he, encClose] at h
      split at h
      · rename_i hp
        exact .inr (.inr (.inl ⟨he, hp, (Host.Outcome.next.inj h).symm⟩))
      · split at h
        · rename_i hp
          obtain ⟨u, hu, ht⟩ := andThen_eq_next h
          exact .inr (.inr (.inr (.inl ⟨he, hp, u, hu, (Host.Outcome.next.inj ht).symm⟩)))
        · split at h
          · rename_i hp
            obtain ⟨u, hu, ht⟩ := andThen_eq_next h
            exact .inr (.inr (.inr (.inr ⟨he, hp, u, hu, (Host.Outcome.next.inj ht).symm⟩)))
          · cases h
    · rw [if_neg he] at h
      cases h

/-- What one step of the decoder can answer with a next state (R85 to R92, R116). -/
theorem decStep_eq_next {s t : State w} (h : decStep s = .next t) :
    (s.si < s.len ∧ ∃ c, checkChar (readSrc s) s.pos s.endMark = .error c ∧ t = takeFail c s) ∨
    (s.si < s.len ∧ s.pos ≠ 3#2 ∧ ∃ v e, checkChar (readSrc s) s.pos s.endMark = .ok (v, e) ∧
      t = { s with si := s.si + 1, endMark := e, acc := shiftIn s.acc v, pos := s.pos + 1#2 }) ∨
    (s.si < s.len ∧ s.pos = 3#2 ∧ ∃ v e u, checkChar (readSrc s) s.pos s.endMark = .ok (v, e) ∧
      emitAll (flushDec (shiftIn s.acc v) e) { s with si := s.si + 1, endMark := e } = .next u ∧
        t = { u with acc := 0#24, pos := 0#2 }) ∨
    (s.si = s.len ∧ s.pos ≠ 0#2 ∧ t = takeFail .truncatedInput s) ∨
    (s.si = s.len ∧ s.pos = 0#2 ∧ t = takeDone s.di s) := by
  rw [decStep] at h
  by_cases hlt : s.si < s.len
  · rw [if_pos hlt, decChar] at h
    split at h
    · rename_i c hc
      exact .inl ⟨hlt, c, hc, (Host.Outcome.next.inj h).symm⟩
    · rename_i v e hc
      simp only [] at h
      by_cases hp : s.pos = 3#2
      · rw [if_neg (by simpa using hp)] at h
        obtain ⟨u, hu, ht⟩ := andThen_eq_next h
        exact .inr (.inr (.inl ⟨hlt, hp, v, e, u, hc, hu, (Host.Outcome.next.inj ht).symm⟩))
      · rw [if_pos hp] at h
        exact .inr (.inl ⟨hlt, hp, v, e, hc, (Host.Outcome.next.inj h).symm⟩)
  · rw [if_neg hlt] at h
    by_cases he : s.si = s.len
    · rw [if_pos he, decClose] at h
      split at h
      · rename_i hp
        exact .inr (.inr (.inr (.inl ⟨he, hp, (Host.Outcome.next.inj h).symm⟩)))
      · rename_i hp
        exact .inr (.inr (.inr (.inr ⟨he, by simpa using hp, (Host.Outcome.next.inj h).symm⟩)))
    · rw [if_neg he] at h
      cases h

/-- R87, R88: an accepted character never leaves the end marker at 3, and never clears it. -/
theorem checkChar_mark {c : Byte} {pos e e' : BitVec 2} {v : SymVal} (h : checkChar c pos e = .ok (v, e'))
    (he : e ≠ 3#2) : e' ≠ 3#2 ∧ (e' = 0#2 → e = 0#2) := by
  unfold checkChar at h
  split at h
  · cases h
  · split at h
    · rename_i x hx
      simp only [Except.ok.injEq, Prod.mk.injEq] at h
      rw [h.2] at hx
      unfold padMark at hx
      split_ifs at hx with h1 h2 h3 <;> simp at hx <;> subst hx
      · exact ⟨by decide, fun _ => h1⟩
      · exact ⟨by decide, fun _ => h1⟩
      · exact ⟨he, fun h => h⟩
    · cases h
  · simp only [Except.ok.injEq, Prod.mk.injEq] at h
    rw [← h.2]
    exact ⟨he, fun h => h⟩
  · cases h

/-- The failure exit does what `FailedFrom` says, whatever the cause. -/
theorem failedFrom_takeFail (c : FailCause) (s : State w) : FailedFrom s (takeFail c s) :=
  ⟨rfl, rfl, fun _ ha => Memory.read_forgetBytes_outside _ _ ha, fun _ hk => Memory.read_forgetBytes_inside _ _ _ _ hk⟩

theorem andThen_ne_refused {o : Result w} {f : State w → Result w} (h : ∀ r, o ≠ .refused r)
    (hf : ∀ s r, f s ≠ .refused r) (r : Refusal) : andThen o f ≠ .refused r := by
  cases o with
  | next s => exact hf s r
  | fault x => simp
  | refused x => exact absurd rfl (h x)

theorem emitAll_ne_refused (bs : List Byte) : ∀ (s : State w) r, emitAll bs s ≠ .refused r := by
  induction bs with
  | nil => simp [emitAll]
  | cons b bs ih =>
    intro s r
    rw [emitAll, emit]
    split
    · exact ih _ r
    · simp

theorem encStep_ne_refused (s : State w) (r : Refusal) : encStep s ≠ .refused r := by
  have h (bs : List Byte) (u : State w) (f : State w → State w) :
      (andThen (emitAll bs u) fun t => .next (f t)) ≠ .refused r :=
    andThen_ne_refused (emitAll_ne_refused bs u) (fun _ _ => by simp) r
  unfold encStep encByte encClose
  dsimp only
  split_ifs <;> first | exact h _ _ _ | (intro hc; cases hc)

theorem decStep_ne_refused (s : State w) (r : Refusal) : decStep s ≠ .refused r := by
  have h (bs : List Byte) (u : State w) (f : State w → State w) :
      (andThen (emitAll bs u) fun t => .next (f t)) ≠ .refused r :=
    andThen_ne_refused (emitAll_ne_refused bs u) (fun _ _ => by simp) r
  unfold decStep decChar decClose
  cases checkChar (readSrc s) s.pos s.endMark <;> dsimp only <;>
    split_ifs <;> first | exact h _ _ _ | (intro hc; cases hc)

theorem runToDone_ne_refused {f : State w → Result w} (hf : ∀ s r, f s ≠ .refused r) :
    ∀ k s r, runToDone f k s ≠ .refused r := by
  intro k
  induction k with
  | zero => simp
  | succ k ih =>
    intro s r
    by_cases hp : s.phase = .run
    · rw [runToDone_run hp]
      exact andThen_ne_refused (hf s) ih r
    · rw [runToDone_stop hp]
      simp

/-- R126: a meaning that cannot refuse is refused exactly for a reason that stops its start. -/
theorem andThen_beginOp_eq_refused {f : State w → Result w} (hf : ∀ s r, f s ≠ .refused r) (op : BitVec 2) (n : Nat)
    (s : State w) (r : Refusal) : andThen (beginOp op n s) f = .refused r ↔ startRefusal op n s = some r := by
  unfold beginOp
  cases h : startRefusal op n s with
  | none => simpa using hf _ r
  | some x => simp

@[simp] theorem runSteps_zero (s : State w) : runSteps 0 s = .next s := rfl

/-- At the default width these are the steps of the host's own core. -/
theorem runSteps_eq_run (k : Nat) (s : State) : runSteps k s = Host.Core.run core k s := by
  induction k generalizing s with
  | zero => rfl
  | succ k ih =>
    simp only [runSteps, Host.Core.run]
    have h : core.step s = stepAt s := rfl
    rw [h]
    cases stepAt s with
    | next t => exact ih t
    | fault r => rfl
    | refused r => rfl

/-- With no host action pending a step of the machine is the engine's own. -/
theorem stepAt_engine {s : State w} (hi : s.inbox = []) : stepAt s = engineStep s := by
  rw [stepAt, hi]

theorem runSteps_succ {s : State w} (k : Nat) (hi : s.inbox = []) :
    runSteps (k + 1) s = andThen (engineStep s) (runSteps k) := by
  rw [runSteps, stepAt_engine hi]

theorem runSteps_add (a b : Nat) (s : State w) : runSteps (a + b) s = andThen (runSteps a s) (runSteps b) := by
  induction a generalizing s with
  | zero => simp
  | succ a ih =>
    rw [Nat.add_right_comm, runSteps, runSteps]
    cases stepAt s with
    | next v => exact ih v
    | fault r => rfl
    | refused r => rfl

/-- `exec` is `execAt` at the default width. -/
theorem exec_eq_execAt (i : Instr) (s : State) : exec i s = execAt i s := by
  cases i <;> rfl

/-- Outside an operation the machine waits. -/
theorem runSteps_idle {s : State w} (hi : s.inbox = []) (hp : s.phase ≠ .run) (k : Nat) : runSteps k s = .next s := by
  induction k with
  | zero => rfl
  | succ k ih => rw [runSteps_succ _ hi, engineStep, if_neg hp, andThen_next, ih]

/-- What a flush leaves in each register. -/
theorem emitAll_regs {bs : List Byte} {s t : State w} (h : emitAll bs s = .next t) :
    t.op = s.op ∧ t.len = s.len ∧ t.acc = s.acc ∧ t.pos = s.pos ∧ t.endMark = s.endMark ∧ t.si = s.si ∧
      t.phase = s.phase ∧ t.fail = s.fail ∧ t.result = s.result ∧ t.bufs = s.bufs ∧ t.fresh = s.fresh ∧
      t.inbox = s.inbox := by
  obtain ⟨m, d, rfl⟩ : ∃ m d, t = { s with mem := m, di := d } := ⟨t.mem, t.di, (emitAll_frame h).1⟩
  simp

end Sys2Proof.Machine
end

