-- ==== Sys2Proof/Laws/Text.lean ====
section
/-! SUPPORT. The observed functions `ENC` and `DEC` (spec/41_encoder.md R79, spec/42_decoder.md R94): what their parts
say of a text. -/

namespace Sys2Proof.Machine

/-- R63, R64: a symbol of the alphabet classes as itself. -/
theorem classify_sym : ∀ v : SymVal, classify (sym v) = .symbol v := by decide

theorem classify_padCh : classify 0x3D#8 = .pad := by decide

/-- R79: whole groups encode by themselves. -/
theorem encText_append {a : List Byte} (b : List Byte) (h : a.length % 3 = 0) :
    encText (a ++ b) = encText a ++ encText b := by
  induction a using encText.induct with
  | case1 x y z t ih => simp at h; simp [encText, ih (by omega)]
  | case2 x y => simp at h
  | case3 x => simp at h
  | case4 => simp [encText]

/-- What the index of the first `=` says. -/
theorem firstPad_some {t : List Byte} {p : Nat} (h : firstPad t = some p) :
    p < t.length ∧ classify (t.getD p 0#8) = .pad ∧ ∀ j < p, classify (t.getD j 0#8) ≠ .pad := by
  unfold firstPad at h
  rw [List.findIdx?_eq_some_iff_getElem] at h
  obtain ⟨hp, h1, h2⟩ := h
  refine ⟨hp, by simpa [List.getD_eq_getElem?_getD, List.getElem?_eq_getElem hp] using h1, fun j hj => ?_⟩
  have := h2 j hj
  simpa [List.getD_eq_getElem?_getD, List.getElem?_eq_getElem (show j < t.length by omega)] using this

theorem firstPad_none {t : List Byte} (h : firstPad t = none) {k : Nat} (hk : k < t.length) :
    classify (t.getD k 0#8) ≠ .pad := by
  unfold firstPad at h
  rw [List.findIdx?_eq_none_iff] at h
  have := h t[k] (List.getElem_mem hk)
  simpa [List.getD_eq_getElem?_getD, List.getElem?_eq_getElem hk] using this

theorem firstPad_append {t : List Byte} {p : Nat} (u : List Byte) (h : firstPad t = some p) :
    firstPad (t ++ u) = some p := by
  unfold firstPad at *
  rw [List.findIdx?_append, h]
  rfl

theorem firstOffender_none {t : List Byte} : firstOffender t = none ↔ ∀ j < t.length, offends t j = false := by
  simp [firstOffender]

theorem firstOffender_some {t : List Byte} {i : Nat} :
    firstOffender t = some i ↔ i < t.length ∧ offends t i = true ∧ ∀ j < i, offends t j = false := by
  unfold firstOffender
  rw [List.find?_range_eq_some]
  simp
  tauto

/-- A text is accepted exactly when no character offends and its units are whole; then it yields its units' bytes. -/
theorem decText_eq_some {t y : List Byte} :
    decText t = some y ↔ (∀ j < t.length, offends t j = false) ∧ t.length % 4 = 0 ∧
      y = (List.range (t.length / 4)).flatMap fun u => (groupBytes (unitGroup t u)).take (unitBytes t u) := by
  unfold decText
  simp only [firstOffender_none]
  split
  · rename_i h
    simp only [Option.some.injEq]
    exact ⟨fun e => ⟨h.1, h.2, e.symm⟩, fun e => e.2.2.symm⟩
  · rename_i h
    exact ⟨fun e => (by cases e), fun e => absurd ⟨e.1, e.2.1⟩ h⟩

/-- Where a text fails: at its first offender, or at its end where its units are not whole. -/
theorem failCause_eq_some {t : List Byte} {c : FailCause} {i : Nat} (h : failCause t = some (c, i)) :
    firstOffender t = some i ∨ (firstOffender t = none ∧ i = t.length ∧ t.length % 4 ≠ 0) := by
  unfold failCause at h
  split at h
  · rename_i j hj
    left
    rw [hj]
    split at h <;> simp at h <;> simp [h.2]
  · rename_i hn
    right
    split at h
    · simp at h
    · simp at h
      exact ⟨hn, h.2.symm, by assumption⟩

/-- Every unit yields one to three bytes. -/
theorem unitBytes_range (t : List Byte) (u : Nat) : 1 ≤ unitBytes t u ∧ unitBytes t u ≤ 3 := by
  unfold unitBytes padBytes
  split
  · omega
  · split_ifs <;> omega

end Sys2Proof.Machine
end

