-- ==== Sys2Proof/Tests/Slice0.lean ====
section
/-! SUPPORT. Tests of the model, with expected results from the spec (spec/95_test_vectors.md, and words written out from
spec/30_encoding.md R46), and for each obligation with hypotheses a concrete state that meets them. -/

open Sys2Proof Sys2Proof.Machine

namespace Sys2Proof.Tests

/-- The state after reset with the text `t` as source from address 0 and `dcap` elements of destination from 64 on. -/
def withSource (t : List Byte) (dcap : Nat) : State :=
  { State.reset with
    bufs := { src := 0, dst := 64, dcap := dcap }
    mem := State.reset.mem.writeBytes 0 t }

/-- The same, in the middle of an operation. -/
def midway (op : BitVec 2) (t : List Byte) (dcap : Nat) (acc : Group) (pos endMark : BitVec 2) (si di : Word) : State :=
  { withSource t dcap with
    op := op, len := BitVec.ofNat 32 t.length, phase := .run, acc := acc, pos := pos, endMark := endMark, si := si,
    di := di }

/-- What the host sees of an operation: `RESULT`, `STATUS.FAIL` and the first `k` elements of `DST`. -/
def seen {w : Nat} (r : Result w) (k : Nat) : Option (Word w × Bool × List Byte) :=
  match r with
  | .next t => some (t.result, t.fail, t.mem.readBytes t.bufs.dst k)
  | _ => none

/-- Whether a result is a next state. -/
def goesOn {w : Nat} : Result w → Bool
  | .next _ => true
  | _ => false

/-- The reason for a stop. -/
def faultOf {w : Nat} : Result w → Option Fault
  | .fault r => some r
  | _ => none

/-- The reason for a refusal. -/
def refusalOf {w : Nat} : Result w → Option Refusal
  | .refused r => some r
  | _ => none

/-! ### Well-formedness, one ill-formed term for each constructor -/

theorem test_wf_rejects_enclen : (Instr.b64enclen 4294967296).wf = false := by decide
theorem test_wf_rejects_declen : (Instr.b64declen 4294967296).wf = false := by decide
theorem test_wf_rejects_enc : (Instr.b64enc 4294967296).wf = false := by decide
theorem test_wf_rejects_dec : (Instr.b64dec 4294967296).wf = false := by decide
theorem test_wf_accepts_largest : (Instr.b64enc 4294967295).wf = true := by decide

/-! ### Decoding words written out from R46: `OP` in bits 33:32, `LEN` in bits 31:0 -/

theorem test_decode_enclen : decode 0b00_00000000000000000000000000000101#34 = .b64enclen 5 := by decide
theorem test_decode_declen : decode 0b01_00000000000000000000000000001000#34 = .b64declen 8 := by decide
theorem test_decode_enc : decode 0b10_10000000000000000000000000000011#34 = .b64enc 2147483651 := by decide
theorem test_decode_dec : decode 0b11_11111111111111111111111111111111#34 = .b64dec 4294967295 := by decide
theorem test_decode_table_word : decodeTableWord 40 0x300000008 = some (.b64dec 8) := by decide
theorem test_decode_refuses_wider_number : decodeNat 0x400000000 = .error .widerThanCommandWord := rfl

/-! ### The machine, one step each -/

/-- S2 and S5 of spec/95_test_vectors.md: `B64ENCLEN` of 1 is 4 and of 4 is 8. -/
theorem test_enclen : seen (exec (.b64enclen 1) State.reset) 0 = some (4, false, []) ∧
    seen (exec (.b64enclen 4) State.reset) 0 = some (8, false, []) := by decide

/-- R105: `B64DECLEN` of 5 is 3 and of 11 is 8. -/
theorem test_declen : seen (exec (.b64declen 5) State.reset) 0 = some (3, false, []) ∧
    seen (exec (.b64declen 11) State.reset) 0 = some (8, false, []) := by decide

/-- R7, R108: at `LENW = 16` the largest admitted `B64ENC` length is 24573, and `FAILVAL` is 0xFFFF (R22). -/
theorem test_other_width :
    refusalOf (execAt (.b64enclen 24574) (State.resetAt 16)) = some .lengthBound ∧
      seen (execAt (.b64enclen 24573) (State.resetAt 16)) 0 = some (32764, false, []) ∧
      seen (execAt (.b64dec 1) (State.resetAt 16)) 0 = some (0xFFFF, true, []) := by decide

/-- R46, R47 at `LENW = 16`: `OP` in bits 17:16 of an 18-bit word. -/
theorem test_decode_other_width :
    decode (w := 16) 0b10_0000000000000101#18 = .b64enc 5 ∧ encode (.b64enc 5) 16 = 0b10_0000000000000101#18 := by decide

/-- V1: `"Man"` encodes to `"TWFu"`. -/
theorem test_enc_man : seen (exec (.b64enc 3) (withSource [0x4D, 0x61, 0x6E] 4)) 4 =
    some (4, false, [0x54, 0x57, 0x46, 0x75]) := by decide

/-- V3: `"M"` encodes to `"TQ=="`. -/
theorem test_enc_m : seen (exec (.b64enc 1) (withSource [0x4D] 4)) 4 =
    some (4, false, [0x54, 0x51, 0x3D, 0x3D]) := by decide

/-- R97: `"TWE=TQ=="` decodes to 4D 61 4D 00, the end marker staying 2. -/
theorem test_dec_marker_stays : seen (exec (.b64dec 8) (withSource [0x54, 0x57, 0x45, 0x3D, 0x54, 0x51, 0x3D, 0x3D] 6)) 4 =
    some (4, false, [0x4D, 0x61, 0x4D, 0x00]) := by decide

/-- V7: `"QQ =="` fails, at the space. -/
theorem test_dec_whitespace : seen (exec (.b64dec 5) (withSource [0x51, 0x51, 0x20, 0x3D, 0x3D] 3)) 0 =
    some (0xFFFFFFFF, true, []) := by decide

/-- R38: a destination one element short. -/
theorem test_enc_short_buffer : faultOf (exec (.b64enc 1) (withSource [0x4D] 3)) = some .dstOverrun := by decide

/-- R43: source and destination share one element. -/
theorem test_overlap : refusalOf (exec (.b64enc 3) { State.reset with bufs := ⟨0, 2, 4⟩ }) = some .buffersOverlap := by
  decide

/-- P1-like: a word placed as the host's next command is the one the next step runs. -/
theorem test_fetch_word : seen (step (State.reset.withFetchWord 40 0x000000003)) 0 = some (4, false, []) ∧
    seen (step (State.reset.withFetchWord 40 0x300000000)) 0 = some (0, false, []) := by decide

theorem test_reset_memory_wf : State.reset.mem.wf := by decide

/-- `RunInv`, evaluated clause by clause. -/
def runCheck (s : State) : Bool :=
  isTransform s.op && decide (s.len.toNat < 2 ^ (Config.LENW - 1)) &&
    decide (estimate s.op s.len.toNat < 2 ^ (Config.LENW - 1)) && !s.bufs.overlap s.len.toNat &&
    decide (s.si.toNat ≤ s.len.toNat) &&
    decide (s.op = opB64Enc → s.endMark = 0#2 ∧ s.pos.toNat + s.si.toNat % 3 = 2 ∧ s.di.toNat = 4 * (s.si.toNat / 3) ∧
      s.acc.toNat % 2 ^ (8 * (s.pos.toNat + 1)) = 0) &&
    decide (s.op = opB64Dec → s.endMark ≠ 3#2 ∧ s.pos.toNat = s.si.toNat % 4 ∧ s.acc.toNat < 2 ^ (6 * s.pos.toNat) ∧
      s.di.toNat ≤ 3 * (s.si.toNat / 4) ∧ (s.endMark = 0#2 → s.di.toNat = 3 * (s.si.toNat / 4)))

/-- `Invariant`, evaluated clause by clause. -/
def invCheck (s : State) : Bool :=
  decide s.mem.wf && decide (s.fail = true ↔ s.result = Config.failVal) &&
    decide (s.fail = false → s.result.toNat < 2 ^ (Config.LENW - 1)) &&
    decide (s.phase = .idle → s.fail = false ∧ s.result = 0) && (decide (s.phase ≠ .run) || runCheck s)

theorem runInv_of_check {s : State} (h : runCheck s = true) : RunInv s := by
  simp only [runCheck, Bool.and_eq_true, decide_eq_true_eq, Bool.not_eq_true'] at h
  obtain ⟨⟨⟨⟨⟨⟨h1, h2⟩, h3⟩, h4⟩, h5⟩, h6⟩, h7⟩ := h
  exact ⟨h1, h2, h3, h4, h5, h6, h7⟩

theorem invariant_of_check {s : State} (h : invCheck s = true) : Invariant s := by
  simp only [invCheck, Bool.and_eq_true, Bool.or_eq_true, decide_eq_true_eq] at h
  obtain ⟨⟨⟨⟨h1, h2⟩, h3⟩, h4⟩, h5⟩ := h
  exact ⟨by decide, h1, h2, h3, h4, fun hp => runInv_of_check (h5.resolve_left (by simp [hp]))⟩

/-! ### Witnesses: for each obligation with hypotheses, states and operands that meet them -/

theorem witness_DecodeInvertsEncode : (Instr.b64dec 4294967295).wf = true ∧ (Instr.b64enclen 0).wf = true := by decide

theorem witness_OperationCodeSelectsCommand :
    0x0FFFFFFFF#34 &&& 0x300000000#34 = 0x000000000#34 ∧ 0x1FFFFFFFF#34 &&& 0x300000000#34 = 0x100000000#34 ∧
      0x2FFFFFFFF#34 &&& 0x300000000#34 = 0x200000000#34 ∧ 0x3FFFFFFFF#34 &&& 0x300000000#34 = 0x300000000#34 ∧
      (0x0FFFF#18).toNat / 2 ^ 16 = 0 ∧ (0x10000#18).toNat / 2 ^ 16 = 1 ∧ (0x2FFFF#18).toNat / 2 ^ 16 = 2 ∧
      (0x30000#18).toNat / 2 ^ 16 = 3 := by decide

theorem witness_StepExecutesIssuedCommand :
    { State.reset with inbox := [.call ⟨0x000000003#34, ⟨0, 3, 4⟩⟩, .pass] }.inbox =
      .call ⟨0x000000003#34, ⟨0, 3, 4⟩⟩ :: [.pass] ∧
    { State.resetAt 16 with inbox := [.start ⟨0x20003#18, ⟨0, 3, 4⟩⟩, .pass] }.inbox =
      .start ⟨0x20003#18, ⟨0, 3, 4⟩⟩ :: [.pass] ∧
    { State.resetAt 16 with inbox := [.pass] }.inbox = .pass :: [] := ⟨rfl, rfl, rfl⟩

theorem witness_StepWithoutHostAction :
    (State.reset.inbox = [] ∧ State.reset.phase ≠ .run) ∧
      (let s := midway opB64Enc [0x4D] 4 0 2 0 0 0; s.inbox = [] ∧ s.phase = .run ∧ s.op = opB64Enc) ∧
      let s := midway opB64Dec [0x54] 4 0 0 0 0 0; s.inbox = [] ∧ s.phase = .run ∧ s.op = opB64Dec := by decide

theorem witness_InverseTableInvertsAlphabet : (0x7F#8).toNat < 128 ∧ (0x00#8).toNat < 128 := by decide

theorem witness_LookupsAreInverse : val 0x2F#8 = some 63#6 ∧ val 0x41#8 = some 0#6 := by decide

theorem witness_EncodedLengthCompletes :
    (State.reset.phase ≠ .run ∧ 1610612733 < 2 ^ 31 ∧ (1610612733 + 2) / 3 * 4 < 2 ^ 31) ∧
      ((State.resetAt 16).phase ≠ .run ∧ 24573 < 2 ^ (16 - 1) ∧ (24573 + 2) / 3 * 4 < 2 ^ (16 - 1)) ∧
      [0x4D#8, 0x61#8, 0x6E#8].length = 3 := by decide

theorem witness_DecodedLengthCompletes :
    (State.reset.phase ≠ .run ∧ 2147483647 < 2 ^ 31) ∧ ((State.resetAt 16).phase ≠ .run ∧ 32767 < 2 ^ (16 - 1)) ∧
      [0x54#8, 0x51#8, 0x3D#8, 0x3D#8].length = 4 ∧ decText [0x54, 0x51, 0x3D, 0x3D] = some [0x4D] := by decide

theorem witness_EstimatorFrame :
    (∃ t, exec (.b64enclen 4) State.reset = .next t) ∧ ∃ t, exec (.b64declen 4) State.reset = .next t :=
  ⟨⟨_, rfl⟩, ⟨_, rfl⟩⟩

theorem witness_EstimatorLaws : 3 ≤ 4 := by decide

theorem witness_StartTransitionSetsWorkingRegisters :
    (∀ i ∈ [Instr.b64enclen 1, .b64declen 1, .b64enc 1, .b64dec 1], CanStart (opOf i) i.lenOf (withSource [0x4D] 4)) ∧
      opOf (.b64enc 1) = 2#2 ∧ opOf (.b64dec 1) = 3#2 ∧ isTransform (opOf (.b64enc 1)) = true ∧
      ∃ t, (midway opB64Enc [0x4D] 4 0 2 0 0 0).phase = .run ∧
        engineStep (midway opB64Enc [0x4D] 4 0 2 0 0 0) = .next t ∧ t.phase = .run :=
  ⟨by unfold CanStart; decide, rfl, rfl, rfl, _, rfl, rfl, rfl⟩

theorem witness_BusyBlockRefusesCommands : (midway opB64Enc [0x4D] 4 0 2 0 0 0).phase = .run := rfl

theorem witness_LengthBeyondBoundRefused :
    State.reset.phase ≠ .run ∧ 1610612733 < 1610612734 ∧ 2147483647 < 2147483648 ∧ 1610612733 ≤ 1610612733 ∧
      2147483647 ≤ 2147483647 := by decide

theorem witness_SharedBufferElementRefused :
    (let s := { State.reset with bufs := ⟨0, 2, 4⟩ }
     s.phase ≠ .run ∧ 3 < 2 ^ 31 ∧ encodedLength 3 < 2 ^ 31 ∧ ∃ a, s.bufs.src ≤ a ∧ a < s.bufs.src + 3 ∧ s.bufs.dst ≤ a ∧
       a < s.bufs.dst + s.bufs.dcap) ∧
    (let s := { State.reset with bufs := ⟨0, 2147483646, 1⟩ }
     s.phase ≠ .run ∧ 2147483647 < 2 ^ 31 ∧ ∃ a, s.bufs.src ≤ a ∧ a < s.bufs.src + 2147483647 ∧ s.bufs.dst ≤ a ∧
       a < s.bufs.dst + s.bufs.dcap) ∧
      let s := { State.reset with bufs := ⟨0, 3, 4⟩ }
      s.phase ≠ .run ∧ ¬ s.bufs.overlap 3 = true :=
  ⟨⟨by decide, by decide, by decide, 2, by decide⟩, ⟨by decide, by decide, 2147483646, by decide⟩, by decide⟩

theorem witness_EncoderByteEntersLane :
    (let s := midway opB64Enc [0x4D, 0x61, 0x6E] 4 0 2 0 0 0; Running opB64Enc s ∧ s.si < s.len ∧ s.pos ≠ 0#2) ∧
      let s := midway opB64Enc [0x4D, 0x61, 0x6E] 4 0x4D0000 1 0 1 0; Running opB64Enc s ∧ s.si < s.len ∧ s.pos ≠ 0#2 := by
  unfold Running
  decide

theorem witness_EncoderFlushWritesFourSymbols :
    let s := midway opB64Enc [0x4D, 0x61, 0x6E] 4 0x4D6100 0 0 2 0
    Invariant s ∧ Running opB64Enc s ∧ s.si < s.len ∧ s.pos = 0#2 ∧
      0x4D616E#24 = s.acc ||| (s.mem.read (s.bufs.src + s.si.toNat)).setWidth 24 ∧ s.di.toNat + 4 ≤ s.bufs.dcap :=
  ⟨invariant_of_check (by decide), ⟨rfl, rfl, rfl⟩, by decide, rfl, by decide, by decide⟩

theorem witness_EncoderClosingStep :
    (let s := midway opB64Enc [0x4D, 0x61, 0x6E] 4 0 2 0 3 4
     Invariant s ∧ Running opB64Enc s ∧ s.si = s.len ∧ s.pos = 2#2) ∧
    (let s := midway opB64Enc [0x4D] 4 0x4D0000 1 0 1 0
     Invariant s ∧ Running opB64Enc s ∧ s.si = s.len ∧ s.pos = 1#2 ∧ s.di.toNat + 4 ≤ s.bufs.dcap) ∧
    let s := midway opB64Enc [0x4D, 0x61] 4 0x4D6100 0 0 2 0
    Invariant s ∧ Running opB64Enc s ∧ s.si = s.len ∧ s.pos = 0#2 ∧ s.di.toNat + 4 ≤ s.bufs.dcap :=
  ⟨⟨invariant_of_check (by decide), ⟨rfl, rfl, rfl⟩, rfl, rfl⟩,
    ⟨invariant_of_check (by decide), ⟨rfl, rfl, rfl⟩, rfl, rfl, by decide⟩,
    invariant_of_check (by decide), ⟨rfl, rfl, rfl⟩, rfl, rfl, by decide⟩

theorem witness_FlushBeyondCapacityFaults :
    (let s := midway opB64Enc [0x4D, 0x61, 0x6E] 3 0x4D6100 0 0 2 0
     Invariant s ∧ Running opB64Enc s ∧ s.si < s.len ∧ s.pos = 0#2 ∧ s.bufs.dcap < s.di.toNat + 4) ∧
    (let s := midway opB64Enc [0x4D] 3 0x4D0000 1 0 1 0
     Invariant s ∧ Running opB64Enc s ∧ s.si = s.len ∧ s.pos ≠ 2#2 ∧ s.bufs.dcap < s.di.toNat + 4) ∧
    let s := midway opB64Dec [0x54, 0x57, 0x46, 0x75] 2 0x0134C5 3 0 3 0
    Invariant s ∧ Running opB64Dec s ∧ s.si < s.len ∧ s.pos = 3#2 ∧ CharAccepted s 46#6 0#2 ∧
      s.bufs.dcap < s.di.toNat + 3 :=
  ⟨⟨invariant_of_check (by decide), ⟨rfl, rfl, rfl⟩, by decide, rfl, by decide⟩,
    ⟨invariant_of_check (by decide), ⟨rfl, rfl, rfl⟩, rfl, by decide, by decide⟩,
    invariant_of_check (by decide), ⟨rfl, rfl, rfl⟩, by decide, rfl, .inl ⟨by decide, rfl⟩, by decide⟩

theorem witness_EncoderCompletes :
    (CanStart opB64Enc 3 (withSource [0x4D, 0x61, 0x6E] 4) ∧ encodedLength 3 ≤ 4) ∧
      CanStart opB64Enc 0 (withSource [] 0) ∧ encodedLength 0 ≤ 0 := by
  unfold CanStart
  decide

theorem witness_EncoderFrame : ∃ t, exec (.b64enc 1) (withSource [0x4D] 4) = .next t := ⟨_, rfl⟩

theorem witness_EncoderShortBufferFaults : CanStart opB64Enc 1 (withSource [0x4D] 3) ∧ 3 < encodedLength 1 := by
  unfold CanStart
  decide

theorem witness_EncoderTakesLenPlusOneSteps :
    (withSource [0x4D] 4).inbox = [] ∧ encodedLength 1 ≤ 4 ∧ ∃ t, startOnly (.b64enc 1) (withSource [0x4D] 4) = .next t :=
  ⟨rfl, by decide, _, rfl⟩

theorem witness_EncodingIsInjective : encText [0x4D] = encText [0x4D] := rfl

theorem witness_DecoderRejectsCharacter :
    (let s := midway opB64Dec [0x20] 3 0 0 0 0 0; Running opB64Dec s ∧ s.si < s.len ∧ CharRejected s) ∧
    (let s := midway opB64Dec [0x3D] 3 0 0 0 0 0; Running opB64Dec s ∧ s.si < s.len ∧ CharRejected s) ∧
    (let s := midway opB64Dec [0x41, 0x3D] 3 0 1 0 1 0; Running opB64Dec s ∧ s.si < s.len ∧ CharRejected s) ∧
    let s := midway opB64Dec [0x7F] 3 0 0 0 0 0; Running opB64Dec s ∧ s.si < s.len ∧ CharRejected s := by
  unfold Running CharRejected
  decide

theorem witness_DecoderAcceptsCharacter :
    (let s := midway opB64Dec [0x54] 3 0 0 0 0 0
     Running opB64Dec s ∧ s.si < s.len ∧ s.pos ≠ 3#2 ∧ CharAccepted s 19#6 0#2) ∧
    (let s := midway opB64Dec [0x54, 0x51, 0x3D] 3 0x4D0 2 0 2 0
     Running opB64Dec s ∧ s.si < s.len ∧ s.pos ≠ 3#2 ∧ CharAccepted s 0#6 1#2) ∧
    let s := midway opB64Dec [0x54, 0x51, 0x3D, 0x3D, 0x3D] 3 0 0 1 4 1
    Running opB64Dec s ∧ s.si < s.len ∧ s.pos ≠ 3#2 ∧ CharAccepted s 0#6 1#2 := by
  unfold Running CharAccepted
  decide

theorem witness_DecoderFlushWritesBytes :
    (let s := midway opB64Dec [0x54, 0x57, 0x46, 0x75] 3 0x0134C5 3 0 3 0
     Invariant s ∧ Running opB64Dec s ∧ s.si < s.len ∧ s.pos = 3#2 ∧ CharAccepted s 46#6 0#2 ∧
       s.di.toNat + 3 ≤ s.bufs.dcap) ∧
    (let s := midway opB64Dec [0x54, 0x57, 0x45, 0x3D] 2 0x0134C4 3 0 3 0
     Invariant s ∧ Running opB64Dec s ∧ s.si < s.len ∧ s.pos = 3#2 ∧ CharAccepted s 0#6 2#2 ∧
       s.di.toNat + 2 ≤ s.bufs.dcap) ∧
    let s := midway opB64Dec [0x54, 0x51, 0x3D, 0x3D] 1 0x013400 3 1 3 0
    Invariant s ∧ Running opB64Dec s ∧ s.si < s.len ∧ s.pos = 3#2 ∧ CharAccepted s 0#6 1#2 ∧
      s.di.toNat + 1 ≤ s.bufs.dcap :=
  ⟨⟨invariant_of_check (by decide), ⟨rfl, rfl, rfl⟩, by decide, rfl, .inl ⟨by decide, rfl⟩, by decide⟩,
    ⟨invariant_of_check (by decide), ⟨rfl, rfl, rfl⟩, by decide, rfl,
      .inr ⟨by decide, rfl, .inr (.inl ⟨rfl, rfl, rfl⟩)⟩, by decide⟩,
    invariant_of_check (by decide), ⟨rfl, rfl, rfl⟩, by decide, rfl,
      .inr ⟨by decide, rfl, .inr (.inr ⟨by decide, rfl⟩)⟩, by decide⟩

theorem witness_DecoderClosingStep :
    (let s := midway opB64Dec [] 0 0 0 0 0 0; Running opB64Dec s ∧ s.si = s.len ∧ s.pos = 0#2 ∧ Invariant s) ∧
    let s := midway opB64Dec [0x54] 3 19 1 0 1 0; Running opB64Dec s ∧ s.si = s.len ∧ s.pos ≠ 0#2 ∧ Invariant s :=
  ⟨⟨⟨rfl, rfl, rfl⟩, rfl, rfl, invariant_of_check (by decide)⟩,
    ⟨rfl, rfl, rfl⟩, rfl, by decide, invariant_of_check (by decide)⟩

theorem witness_FailureExitKeepsRegistersAndOtherMemory :
    (let s := midway opB64Dec [0x20] 3 0 0 0 0 0
     Running opB64Dec s ∧ s.si < s.len ∧ ∃ c, checkChar (readSrc s) s.pos s.endMark = .error c) ∧
    let s := midway opB64Dec [0x54] 3 19 1 0 1 0; Running opB64Dec s ∧ s.si = s.len ∧ s.pos ≠ 0#2 :=
  ⟨⟨⟨rfl, rfl, rfl⟩, by decide, _, rfl⟩, ⟨rfl, rfl, rfl⟩, by decide, by decide⟩

theorem witness_WhitespaceIsFatalEverywhere :
    (let s := midway opB64Dec [0x0D] 3 0 0 0 0 0
     Running opB64Dec s ∧ s.si < s.len ∧
       s.mem.read (s.bufs.src + s.si.toNat) ∈ [0x20#8, 0x09#8, 0x0A#8, 0x0D#8]) ∧
    0x20#8 ∈ [0x20#8, 0x09#8, 0x0A#8, 0x0D#8] ∧ 0x20#8 ∈ [0x51#8, 0x51#8, 0x20#8] := by
  unfold Running
  decide

theorem witness_DecoderSucceeds :
    let s := withSource [0x54, 0x51, 0x3D, 0x3D] 1
    CanStart opB64Dec 4 s ∧ decText (sourceOf s 4) = some [0x4D] ∧ [0x4D#8].length ≤ s.bufs.dcap := by
  unfold CanStart
  decide

theorem witness_DecoderFails :
    (let s := withSource [0x20] 0
     CanStart opB64Dec 1 s ∧ failCause (sourceOf s 1) = some (.whitespaceInInput, 0) ∧
       bytesBefore (sourceOf s 1) 0 ≤ s.bufs.dcap) ∧
    let s := withSource [0x51, 0x51] 1
    CanStart opB64Dec 2 s ∧ failCause (sourceOf s 2) = some (.truncatedInput, 2) ∧
      bytesBefore (sourceOf s 2) 2 ≤ s.bufs.dcap := by
  unfold CanStart
  decide

theorem witness_DecoderShortBufferFaults :
    (let s := withSource [0x54, 0x51, 0x3D, 0x3D] 0
     CanStart opB64Dec 4 s ∧ decText (sourceOf s 4) = some [0x4D] ∧ s.bufs.dcap < [0x4D#8].length) ∧
    let s := withSource [0x54, 0x57, 0x46, 0x75, 0x20] 2
    CanStart opB64Dec 5 s ∧ failCause (sourceOf s 5) = some (.whitespaceInInput, 4) ∧
      s.bufs.dcap < bytesBefore (sourceOf s 5) 4 := by
  unfold CanStart
  decide

theorem witness_DecoderFrame :
    (∃ t, exec (.b64dec 4) (withSource [0x54, 0x51, 0x3D, 0x3D] 1) = .next t ∧ t.fail = false) ∧
      ∃ t, exec (.b64dec 1) (withSource [0x20] 1) = .next t ∧ t.fail = true := ⟨⟨_, rfl, rfl⟩, ⟨_, rfl, rfl⟩⟩

theorem witness_DecoderStopsAtFirstOffender :
    (let s := withSource [0x51, 0x20] 1
     s.inbox = [] ∧ decodedLength 2 ≤ s.bufs.dcap ∧ (∃ t, startOnly (.b64dec 2) s = .next t) ∧
       failCause (sourceOf s 2) = some (.whitespaceInInput, 1)) ∧
    let s := withSource [0x54, 0x51, 0x3D, 0x3D] 3
    s.inbox = [] ∧ decodedLength 4 ≤ s.bufs.dcap ∧ (∃ t, startOnly (.b64dec 4) s = .next t) ∧
      decText (sourceOf s 4) = some [0x4D] :=
  ⟨⟨rfl, by decide, ⟨_, rfl⟩, by decide⟩, rfl, by decide, ⟨_, rfl⟩, by decide⟩

theorem witness_DecodedTextWithinBound :
    decText [0x54, 0x57, 0x46, 0x75] = some [0x4D, 0x61, 0x6E] ∧ Invariant (withSource [0x54] 0) ∧
      (withSource [0x54] 0).inbox = [] ∧ (∃ t, startOnly (.b64dec 1) (withSource [0x54] 0) = .next t) ∧
      decodedLength 1 ≤ 0 :=
  ⟨by decide, invariant_of_check (by decide), rfl, ⟨_, rfl⟩, by decide⟩

theorem witness_DecodedLengthFromFirstPad :
    (decText [0x54, 0x57, 0x46, 0x75] = some [0x4D, 0x61, 0x6E] ∧ firstPad [0x54, 0x57, 0x46, 0x75] = none) ∧
      (decText [0x54, 0x51, 0x3D, 0x3D] = some [0x4D] ∧ firstPad [0x54, 0x51, 0x3D, 0x3D] = some 2) ∧
      decText [0x54, 0x57, 0x45, 0x3D] = some [0x4D, 0x61] ∧ firstPad [0x54, 0x57, 0x45, 0x3D] = some 3 := by decide

theorem witness_PaddedUnitIgnoresUnusedBits :
    decText [0x54, 0x57, 0x46, 0x75] = some [0x4D, 0x61, 0x6E] ∧ firstPad [0x54, 0x57, 0x46, 0x75] = none ∧
      classify 0x3D#8 = .pad ∧ ∃ v, classify 0x41#8 = .symbol v := ⟨by decide, by decide, by decide, _, rfl⟩

theorem witness_EndMarkerOutlivesUnit :
    decText [0x54, 0x51, 0x3D, 0x3D] = some [0x4D] ∧ firstPad [0x54, 0x51, 0x3D, 0x3D] = some 2 ∧
      [0x3D#8, 0x3D#8, 0x3D#8, 0x3D#8].length % 4 = 0 ∧ ∀ c ∈ [0x3D#8, 0x3D#8, 0x3D#8, 0x3D#8], classify c = .pad := by
  decide

theorem witness_InvariantAtReset : 0 < 1 ∧ (State.resetAt 16).phase = .idle := by decide

theorem witness_StepKeepsInvariant :
    (∃ t, Invariant State.reset ∧ step State.reset = .next t) ∧
      ∃ t, Invariant (midway opB64Enc [0x4D] 4 0 2 0 0 0) ∧ step (midway opB64Enc [0x4D] 4 0 2 0 0 0) = .next t :=
  ⟨⟨_, invariant_of_check (by decide), rfl⟩, ⟨_, invariant_of_check (by decide), rfl⟩⟩

theorem witness_CapacityMetNeverFaults :
    (let s := midway opB64Enc [0x4D] 4 0x4D0000 1 0 1 0
     Invariant s ∧ s.phase = .run ∧ s.inbox = [] ∧ estimate s.op s.len.toNat ≤ s.bufs.dcap) ∧
    let s := midway opB64Dec [0x54, 0x57, 0x46, 0x75] 3 0x0134C5 3 0 3 0
    Invariant s ∧ s.phase = .run ∧ s.inbox = [] ∧ estimate s.op s.len.toNat ≤ s.bufs.dcap :=
  ⟨⟨invariant_of_check (by decide), rfl, rfl, by decide⟩, invariant_of_check (by decide), rfl, rfl, by decide⟩

theorem witness_EngineNeverStuck : Invariant (midway opB64Enc [0x4D] 4 0x4D0000 1 0 1 0) :=
  invariant_of_check (by decide)

theorem witness_OperationTerminates :
    (let s := midway opB64Enc [0x4D] 4 0 2 0 0 0; Invariant s ∧ s.phase = .run ∧ s.inbox = []) ∧
      let s := midway opB64Enc [0x4D] 3 0 2 0 0 0
      Invariant s ∧ s.phase = .run ∧ s.inbox = [] ∧ s.bufs.dcap < estimate s.op s.len.toNat :=
  ⟨⟨invariant_of_check (by decide), rfl, rfl⟩, invariant_of_check (by decide), rfl, rfl, by decide⟩

theorem witness_CallEqualsStartThenSteps :
    ∀ i ∈ [Instr.b64enclen 1, .b64declen 1, .b64enc 1, .b64dec 1],
      (withSource [0x54] 4).inbox = [] ∧ goesOn (startOnly i (withSource [0x54] 4)) = true := by decide

theorem witness_OutcomeDependsOnInputsOnly :
    let s := withSource [0x4D] 4
    let s' := { s with acc := 1#24, result := 7#32, bufs := { s.bufs with dst := 80 } }
    CanStart opB64Enc 1 s ∧ CanStart opB64Enc 1 s' ∧ sourceOf s 1 = sourceOf s' 1 ∧ s.bufs.dcap = s'.bufs.dcap ∧
      ∃ t, exec (.b64enc 1) s = .next t ∧ isTransform opB64Enc = true ∧ t.fail = false :=
  ⟨by unfold CanStart; decide, by unfold CanStart; decide, rfl, rfl, _, rfl, rfl, rfl⟩

/-- The same two inputs at widths 32 and 16. -/
theorem witness_OutcomeDependsOnInputsOnly_widths :
    let s := withSource [0x4D] 4
    let s' : State 16 := { State.resetAt 16 with bufs := s.bufs, mem := s.mem }
    CanStart opB64Enc 1 s ∧ CanStart opB64Enc 1 s' ∧ sourceOf s 1 = sourceOf s' 1 ∧ s.bufs.dcap = s'.bufs.dcap ∧
      ∃ t, execAt (.b64enc 1) s' = .next t ∧ t.result = 4#16 :=
  ⟨by unfold CanStart; decide, by unfold CanStart; decide, rfl, rfl, _, rfl, rfl⟩

theorem witness_OutcomeDependsOnInputsOnly_fault :
    faultOf (exec (.b64enc 1) (withSource [0x4D] 3)) = some .dstOverrun := by decide

/-- A second instance: its source from 32 on, its destination from 96 on. -/
def otherInstance : State := { midway opB64Dec [0x54] 3 0 0 0 0 0 with bufs := ⟨32, 96, 3⟩ }

theorem witness_InstancesDoNotInterfere :
    (midway opB64Enc [0x4D] 4 0x4D0000 1 0 1 0).phase = .run ∧ otherInstance.phase = .run ∧
      DisjointBuffers (midway opB64Enc [0x4D] 4 0x4D0000 1 0 1 0) otherInstance ∧
      (∃ t, engineStep ((midway opB64Enc [0x4D] 4 0x4D0000 1 0 1 0).withMem State.reset.mem) = .next t) ∧
      ∃ t, engineStep (otherInstance.withMem State.reset.mem) = .next t := by
  refine ⟨rfl, rfl, ⟨fun a ha => ?_, fun a ha => ?_⟩, ⟨_, rfl⟩, ⟨_, rfl⟩⟩ <;>
    simp [State.inDst, State.inSrc, midway, withSource, otherInstance] at ha ⊢ <;> omega

theorem witness_HostAccessToBuffersInUse :
    { State.reset with inbox := [.write 5 0x41#8] }.inbox = .write 5 0x41#8 :: [] ∧
      { State.reset with inbox := [.read 5] }.inbox = .read 5 :: [] ∧
      (let s := midway opB64Enc [0x4D] 4 0 2 0 0 0
       s.phase = .run ∧ s.inDst 64 = true ∧ s.inDst 67 = true ∧ s.inDst 68 = false ∧ s.inSrc 0 = true ∧
         s.inSrc 1 = false) := by decide

theorem witness_ResetAbandonsOperation :
    (let s := { State.reset with inbox := [.reset] }; s.inbox = .reset :: [] ∧ s.phase ≠ .run) ∧
      let s := { midway opB64Enc [0x4D] 4 0 2 0 0 0 with inbox := [.reset] }
      s.inbox = .reset :: [] ∧ s.phase = .run ∧ 3 < s.bufs.dcap ∧ OutsideDst s s.bufs.dcap 68 :=
  ⟨⟨rfl, by decide⟩, rfl, rfl, by decide, .inr (by decide)⟩

/-- The phase a step leaves, if it answers a next state. -/
def phaseAfter (r : Result) : Option Phase :=
  match r with
  | .next t => some t.phase
  | _ => none

/-- Each transition of R21, from a state that a run reaches: `IDLE` to `RUN`, `IDLE` to `DONE`, `RUN` to `RUN`, `RUN` to
`DONE`, a reset of a running block, and a waiting block. -/
theorem witness_PhaseTransitionsAndStatusBits :
    phaseAfter (step { withSource [0x4D] 4 with inbox := [.start ⟨0x200000001#34, ⟨0, 64, 4⟩⟩] }) = some .run ∧
    phaseAfter (step { withSource [0x4D] 4 with inbox := [.call ⟨0x200000001#34, ⟨0, 64, 4⟩⟩] }) = some .done ∧
    phaseAfter (step (midway opB64Enc [0x4D] 4 0 2 0 0 0)) = some .run ∧
    phaseAfter (step (midway opB64Enc [0x4D] 4 0x4D0000 1 0 1 0)) = some .done ∧
    phaseAfter (step { midway opB64Enc [0x4D] 4 0 2 0 0 0 with inbox := [.reset] }) = some .idle ∧
    phaseAfter (step State.reset) = some .idle := by decide

theorem witness_EqualReadingMemoriesAreEqual :
    let m : Memory := ⟨[(1, 0x41#8)], []⟩
    m.wf ∧ m.unspec = [] ∧ ∀ a, m.read a = m.read a := ⟨by decide, rfl, fun _ => rfl⟩

end Sys2Proof.Tests
end

/-! ## O50: every step keeps the machine's invariant

The clauses of `RunInv` are split into what an operation's start fixes (`Admissible`, and `SI <= LEN`) and what each
transform says of its working registers (`EncRegs`, `DecRegs`). One lemma for each step function shows that its own
clauses survive; the host's actions and a whole operation are then short uses of these. -/

namespace Sys2Proof.Machine

section KeepsInvariant
variable {w : Nat}

/-- R108, R43: the clauses of `RunInv` about what no step of an operation changes, `OP`, `LEN` and the attachments. -/
def Admissible (s : State w) : Prop :=
  s.len.toNat < 2 ^ (w - 1) ∧ estimate s.op s.len.toNat < 2 ^ (w - 1) ∧ s.bufs.overlap s.len.toNat = false

/-- R15 to R19: the clauses of `RunInv` about the encoder's working registers. -/
def EncRegs (s : State w) : Prop :=
  s.endMark = 0#2 ∧ s.pos.toNat + s.si.toNat % 3 = 2 ∧ s.di.toNat = 4 * (s.si.toNat / 3) ∧
    s.acc.toNat % 2 ^ (8 * (s.pos.toNat + 1)) = 0

/-- R15 to R19, R99: the clauses of `RunInv` about the decoder's working registers. -/
def DecRegs (s : State w) : Prop :=
  s.endMark ≠ 3#2 ∧ s.pos.toNat = s.si.toNat % 4 ∧ s.acc.toNat < 2 ^ (6 * s.pos.toNat) ∧
    s.di.toNat ≤ 3 * (s.si.toNat / 4) ∧ (s.endMark = 0#2 → s.di.toNat = 3 * (s.si.toNat / 4))

theorem runInv_iff {s : State w} :
    RunInv s ↔ isTransform s.op = true ∧ Admissible s ∧ s.si.toNat ≤ s.len.toNat ∧ (s.op = opB64Enc → EncRegs s) ∧
      (s.op = opB64Dec → DecRegs s) := by
  simp only [RunInv, Admissible, EncRegs, DecRegs, and_assoc]

/-- One source element taken within the same operation (R18): what such a step leaves unchanged, and `SI` past the
element. -/
structure Advances (s t : State w) : Prop where
  op : t.op = s.op
  len : t.len = s.len
  bufs : t.bufs = s.bufs
  phase : t.phase = s.phase
  fail : t.fail = s.fail
  result : t.result = s.result
  si : t.si = s.si + 1

theorem Invariant.width_pos {s : State w} (h : Invariant s) : 0 < w := h.1

theorem Invariant.mem_wf {s : State w} (h : Invariant s) : s.mem.wf := h.2.1

theorem Invariant.runInv {s : State w} (h : Invariant s) (hp : s.phase = .run) : RunInv s := by
  obtain ⟨-, -, -, -, -, hrun⟩ := h
  exact hrun hp

/-! ### How a state that a step leaves meets the invariant -/

/-- R22, R9: `done(n)` with a length within the bound. -/
theorem invariant_takeDone (hw : 0 < w) {s : State w} (hmem : s.mem.wf) {n : Word w} (hn : n.toNat < 2 ^ (w - 1)) :
    Invariant (takeDone n s) :=
  ⟨hw, hmem, by simpa using ne_failVal_of_admitted hw hn, fun _ => hn, by simp, by simp⟩

/-- R116: the failure exit. -/
theorem Invariant.takeFail {s : State w} (h : Invariant s) (c : FailCause) : Invariant (takeFail c s) :=
  ⟨h.width_pos, Memory.wf_forgetBytes _ h.mem_wf _ _, by simp, by simp, by simp, by simp⟩

/-- R130: power-on reset, an operation in progress or not. -/
theorem Invariant.powerReset {s : State w} (h : Invariant s) : Invariant (powerReset s) := by
  have h0 : (0 : Word w).toNat < 2 ^ (w - 1) := by simp
  refine ⟨h.width_pos, ?_, by simpa using ne_failVal_of_admitted h.width_pos h0, fun _ => h0, by simp, by simp⟩
  rw [powerReset_mem]
  split
  · exact Memory.wf_forgetBytes _ h.mem_wf _ _
  · exact h.mem_wf

/-- A host's store to an element it may write. -/
theorem Invariant.write {s : State w} (h : Invariant s) (a : Nat) (v : Byte) :
    Invariant { s with mem := s.mem.write a v } := by
  obtain ⟨hw, hmem, hrest⟩ := h
  exact ⟨hw, Memory.wf_write hmem a v, hrest⟩

/-- Outside an operation the invariant does not speak of the attachments. -/
theorem Invariant.attach {s : State w} (h : Invariant s) (hp : s.phase ≠ .run) (b : Buffers) :
    Invariant (attach b s) := by
  obtain ⟨hw, hmem, hiff, hsign, hidle, -⟩ := h
  exact ⟨hw, hmem, hiff, hsign, hidle, fun hrun => absurd hrun hp⟩

/-- R23: the start transition of a transform that may start. -/
theorem Invariant.startTransition {s : State w} (h : Invariant s) {op : BitVec 2} {n : Nat}
    (hop : op = opB64Enc ∨ op = opB64Dec) (hc : CanStart op n s) : Invariant (startTransition op n s) := by
  obtain ⟨-, hn, hest, hdisj⟩ := hc
  have hlen := toNat_ofNat_of_admitted hn
  have hT : isTransform op = true := by rcases hop with rfl | rfl <;> rfl
  have hadm : Admissible (Machine.startTransition op n s) := by simpa [Admissible, hlen, hn, hest] using hdisj hT
  obtain ⟨hw, hmem, hiff, hsign, -, -⟩ := h
  refine ⟨hw, hmem, hiff, hsign, by simp, fun _ => runInv_iff.2 ⟨hT, hadm, by simp, ?_, ?_⟩⟩
  · rintro rfl
    simp [EncRegs]
  · rintro rfl
    simp [DecRegs]

/-! ### Index arithmetic -/

/-- R18: the source index counts up inside the source. -/
theorem toNat_si_succ {s : State w} (h : s.si < s.len) :
    (s.si + 1).toNat = s.si.toNat + 1 ∧ s.si.toNat + 1 ≤ s.len.toNat :=
  have hlt : s.si.toNat < s.len.toNat := h
  ⟨toNat_succ (by have := s.len.isLt; omega), hlt⟩

/-- R19: a flush that has room counts the destination index up by what it writes. -/
theorem toNat_di_emitAll {bs : List Byte} {s t : State w} (h : emitAll bs s = .next t)
    (hroom : s.di.toNat + bs.length < 2 ^ (w - 1)) : t.di.toNat = s.di.toNat + bs.length := by
  have hlt : s.di.toNat + bs.length < 2 ^ w := lt_of_lt_of_le hroom two_pow_pred_le
  rcases eq_or_ne bs [] with rfl | hne
  · rw [emitAll, Host.Outcome.next.injEq] at h
    simp [h]
  by_cases hcap : s.di.toNat + bs.length ≤ s.bufs.dcap
  · rw [emitAll_next bs s hcap hlt, Host.Outcome.next.injEq] at h
    subst h
    simp [Nat.mod_eq_of_lt hlt]
  · rw [emitAll_fault bs s (Nat.lt_of_not_le hcap) hlt hne] at h
    cases h

/-- A step that takes one element keeps the invariant if it keeps its own transform's clauses and memory's form. -/
theorem Invariant.of_advances {s t : State w} (h : Invariant s) (hp : s.phase = .run) (hadv : Advances s t)
    (hlt : s.si < s.len) (hmem : t.mem.wf) (henc : s.op = opB64Enc → EncRegs t) (hdec : s.op = opB64Dec → DecRegs t) :
    Invariant t := by
  obtain ⟨hT, hadm, -, -, -⟩ := runInv_iff.1 (h.runInv hp)
  obtain ⟨hw, -, hiff, hsign, -, -⟩ := h
  obtain ⟨hop, hlen, hbufs, hphase, hfail, hres, hsi⟩ := hadv
  obtain ⟨hsi', hnext⟩ := toNat_si_succ hlt
  refine ⟨hw, hmem, by rwa [hfail, hres], by rwa [hfail, hres], by simp [hphase, hp], fun _ => runInv_iff.2 ?_⟩
  rw [Admissible, hop, hlen, hbufs, hsi, hsi']
  exact ⟨hT, hadm, hnext, henc, hdec⟩

/-- Whatever a flush writes, memory stays canonical. -/
theorem wf_emitAll {bs : List Byte} {s t : State w} (h : emitAll bs s = .next t) (hmem : s.mem.wf) : t.mem.wf :=
  (emitAll_frame h).2.2 hmem

/-- A flush takes one element, whatever it writes. -/
theorem advances_of_emitAll {bs : List Byte} {s u : State w} {e : BitVec 2}
    (hu : emitAll bs { s with si := s.si + 1, endMark := e } = .next u) (acc : Group) (pos : BitVec 2) :
    Advances s { u with acc := acc, pos := pos } := by
  obtain ⟨hop, hlen, -, -, -, hsi, hphase, hfail, hres, hbufs, -, -⟩ := emitAll_regs hu
  exact ⟨hop, hlen, hbufs, hphase, hfail, hres, hsi⟩

/-! ### The encoder -/

/-- R53: a byte in its lane leaves the lanes below it empty. -/
theorem dvd_lane (b : Byte) (pos : BitVec 2) : 2 ^ (8 * pos.toNat) ∣ (lane b pos).toNat := by
  have h24 : 2 ^ (8 * pos.toNat) ∣ 2 ^ 24 := Nat.pow_dvd_pow 2 (by have := pos.isLt; omega)
  rw [lane, BitVec.toNat_shiftLeft, Nat.shiftLeft_eq, Nat.dvd_mod_iff h24]
  exact Nat.dvd_mul_left _ _

/-- R73: the accumulator's free lanes, one fewer after a byte has entered. -/
theorem or_lane_mod {acc : Group} {pos : BitVec 2} (b : Byte) (h : acc.toNat % 2 ^ (8 * (pos.toNat + 1)) = 0) :
    (acc ||| lane b pos).toNat % 2 ^ (8 * pos.toNat) = 0 := by
  have hacc : acc.toNat % 2 ^ (8 * pos.toNat) = 0 :=
    Nat.mod_eq_zero_of_dvd ((Nat.pow_dvd_pow 2 (by omega)).trans (Nat.dvd_of_mod_eq_zero h))
  rw [BitVec.toNat_or, Nat.or_mod_two_pow, hacc, Nat.mod_eq_zero_of_dvd (dvd_lane b pos), Nat.or_self]

/-- R73: the byte step short of a full group. -/
theorem EncRegs.byte {s : State w} (h : EncRegs s) (hlt : s.si < s.len) (hpos : s.pos ≠ 0#2) :
    EncRegs { s with si := s.si + 1, acc := s.acc ||| lane (readSrc s) s.pos, pos := s.pos - 1#2 } := by
  obtain ⟨hend, hsum, hdi, hacc⟩ := h
  have hsi := (toNat_si_succ hlt).1
  have hpred : (s.pos - 1#2).toNat + 1 = s.pos.toNat := by bv_omega
  refine ⟨hend, ?_, ?_, ?_⟩ <;> dsimp only
  · omega
  · omega
  · rw [hpred]
    exact or_lane_mod _ hacc

/-- R74: the flush of a full group. -/
theorem EncRegs.flush {s u : State w} (h : EncRegs s) (hlt : s.si < s.len) (hpos : s.pos = 0#2)
    (hend : u.endMark = s.endMark) (hsi : u.si = s.si + 1) (hdi : u.di.toNat = s.di.toNat + 4) :
    EncRegs { u with acc := 0#24, pos := 2#2 } := by
  obtain ⟨hend0, hsum, hdi0, -⟩ := h
  have hthird : s.si.toNat % 3 = 2 := by simpa [hpos] using hsum
  have hsi' : u.si.toNat = s.si.toNat + 1 := hsi ▸ (toNat_si_succ hlt).1
  refine ⟨hend.trans hend0, ?_, ?_, by simp⟩ <;> dsimp only <;> rw [hsi']
  · show 2 + _ = 2
    omega
  · omega

/-- R80, R108: a unit begun at `DI` lies within the encoder's output. -/
theorem EncRegs.room {s : State w} (h : EncRegs s) (hle : s.si.toNat ≤ s.len.toNat)
    (hmore : s.si < s.len ∨ s.pos ≠ 2#2) : s.di.toNat + 4 ≤ encodedLength s.len.toNat := by
  obtain ⟨-, hsum, hdi, -⟩ := h
  have hmore' : s.si.toNat < s.len.toNat ∨ s.si.toNat % 3 ≠ 0 :=
    hmore.imp_right fun hpos => by
      have : s.pos.toNat ≠ 2 := fun h2 => hpos (BitVec.eq_of_toNat_eq h2)
      omega
  unfold encodedLength
  omega

/-- R76 to R78: the closing step of a partial group, whichever tail it writes. -/
theorem invariant_enc_tail {s u : State w} {bs : List Byte} (hs : Invariant s)
    (hroom : s.di.toNat + bs.length < 2 ^ (w - 1)) (hu : emitAll bs s = .next u) : Invariant (takeDone u.di u) :=
  invariant_takeDone hs.width_pos (wf_emitAll hu hs.mem_wf) (by rwa [toNat_di_emitAll hu hroom])

/-- R73 to R78: a step of the encoder keeps the invariant and goes on with the same operation. -/
theorem encStep_keeps {s t : State w} (hs : Invariant s) (hp : s.phase = .run) (hop : s.op = opB64Enc)
    (h : encStep s = .next t) : Invariant t ∧ t.op = opB64Enc := by
  have hw := hs.width_pos
  have hmem := hs.mem_wf
  obtain ⟨-, ⟨-, hest, -⟩, hle, hregs, -⟩ := runInv_iff.1 (hs.runInv hp)
  replace hregs := hregs hop
  rw [hop, opB64Enc_eq, estimate_enc] at hest
  have hdec (hop' : s.op = opB64Dec) : DecRegs t := absurd (hop.symm.trans hop') (by decide)
  obtain ⟨hlt, hpos, rfl⟩ | ⟨hlt, hpos, u, hu, rfl⟩ | ⟨he, hpos, rfl⟩ | ⟨he, hpos, u, hu, rfl⟩ |
    ⟨he, hpos, u, hu, rfl⟩ := encStep_eq_next h
  case inl =>
    exact ⟨hs.of_advances hp ⟨rfl, rfl, rfl, rfl, rfl, rfl, rfl⟩ hlt hmem (fun _ => hregs.byte hlt hpos) hdec, hop⟩
  case inr.inl =>
    have hmemu := wf_emitAll hu hmem
    have hadv := advances_of_emitAll hu 0#24 2#2
    have hroom := hregs.room hle (.inl hlt)
    have hdi : u.di.toNat = s.di.toNat + 4 := toNat_di_emitAll hu (by simp [flush4]; omega)
    obtain ⟨-, -, -, -, hend, -⟩ := emitAll_regs hu
    exact ⟨hs.of_advances hp hadv hlt hmemu (fun _ => hregs.flush hlt hpos hend hadv.si hdi) hdec,
      hadv.op.trans hop⟩
  case inr.inr.inl =>
    obtain ⟨-, -, hdi, -⟩ := hregs
    refine ⟨invariant_takeDone hw hmem ?_, hop⟩
    unfold encodedLength at hest
    omega
  case inr.inr.inr.inl =>
    have hroom := hregs.room hle (.inr (by simp [hpos]))
    exact ⟨invariant_enc_tail hs (by simp [tail1]; omega) hu, (emitAll_regs hu).1.trans hop⟩
  case inr.inr.inr.inr =>
    have hroom := hregs.room hle (.inr (by simp [hpos]))
    exact ⟨invariant_enc_tail hs (by simp [tail2]; omega) hu, (emitAll_regs hu).1.trans hop⟩

/-! ### The decoder -/

/-- R89: a value shifted into a group that has room for it. -/
theorem shiftIn_lt {acc : Group} {pos : BitVec 2} (v : SymVal) (h : acc.toNat < 2 ^ (6 * pos.toNat))
    (hpos : pos ≠ 3#2) : (shiftIn acc v).toNat < 2 ^ (6 * (pos + 1#2).toNat) := by
  have hsucc : (pos + 1#2).toNat = pos.toNat + 1 ∧ pos.toNat ≤ 2 := by bv_omega
  have h18 : 2 ^ (6 * pos.toNat) ≤ 2 ^ 18 := Nat.pow_le_pow_right (by decide) (by omega)
  have hv := v.isLt
  rw [shiftIn_toNat v (lt_of_lt_of_le h h18), hsucc.1, Nat.mul_add, Nat.pow_add]
  omega

/-- R89: the character step short of a full group. -/
theorem DecRegs.char {s : State w} {c : Byte} {v : SymVal} {e : BitVec 2} (h : DecRegs s) (hlt : s.si < s.len)
    (hpos : s.pos ≠ 3#2) (hc : checkChar c s.pos s.endMark = .ok (v, e)) :
    DecRegs { s with si := s.si + 1, endMark := e, acc := shiftIn s.acc v, pos := s.pos + 1#2 } := by
  obtain ⟨hend, hsum, hacc, hdi, hdi0⟩ := h
  obtain ⟨he, he0⟩ := checkChar_mark hc hend
  have hsi := (toNat_si_succ hlt).1
  have hsucc : (s.pos + 1#2).toNat = s.pos.toNat + 1 ∧ s.pos.toNat ≤ 2 := by bv_omega
  refine ⟨he, ?_, shiftIn_lt v hacc hpos, ?_, fun h0 => ?_⟩ <;> dsimp only <;> rw [hsi]
  · omega
  · omega
  · rw [hdi0 (he0 h0)]; omega

/-- R90: a flush writes at most three bytes, and three while no pad has come. -/
theorem flushDec_length_le (a : Group) (e : BitVec 2) :
    (flushDec a e).length ≤ 3 ∧ (e = 0#2 → (flushDec a e).length = 3) := by
  rw [flushDec_length]
  exact ⟨by split_ifs <;> decide, fun he => if_pos he⟩

/-- R90: the flush of a full group. -/
theorem DecRegs.flush {s u : State w} {c : Byte} {v : SymVal} {e : BitVec 2} (h : DecRegs s) (hlt : s.si < s.len)
    (hpos : s.pos = 3#2) (hc : checkChar c s.pos s.endMark = .ok (v, e)) (hend : u.endMark = e)
    (hsi : u.si = s.si + 1) (hdi : u.di.toNat = s.di.toNat + (flushDec (shiftIn s.acc v) e).length) :
    DecRegs { u with acc := 0#24, pos := 0#2 } := by
  obtain ⟨hend0, hmod, -, hle, heq⟩ := h
  obtain ⟨he, he0⟩ := checkChar_mark hc hend0
  obtain ⟨hlen, hlen0⟩ := flushDec_length_le (shiftIn s.acc v) e
  have hunit : s.si.toNat % 4 = 3 := by simpa [hpos] using hmod.symm
  have hsi' : u.si.toNat = s.si.toNat + 1 := hsi ▸ (toNat_si_succ hlt).1
  refine ⟨hend ▸ he, ?_, by simp, ?_, fun h0 => ?_⟩ <;> dsimp only <;> rw [hsi']
  · show 0 = _
    omega
  · omega
  · have h0' : e = 0#2 := hend.symm.trans h0
    have := heq (he0 h0')
    have := hlen0 h0'
    omega

/-- R99, R108: what a flush at `DI` writes lies within the estimator's value. -/
theorem DecRegs.room {s : State w} (h : DecRegs s) (hlt : s.si < s.len) (hpos : s.pos = 3#2) :
    s.di.toNat + 3 ≤ decodedLength s.len.toNat := by
  obtain ⟨-, hmod, -, hle, -⟩ := h
  have hnext := (toNat_si_succ hlt).2
  have hunit : s.si.toNat % 4 = 3 := by simpa [hpos] using hmod.symm
  unfold decodedLength
  omega

/-- R85 to R92: a step of the decoder keeps the invariant and goes on with the same operation. -/
theorem decStep_keeps {s t : State w} (hs : Invariant s) (hp : s.phase = .run) (hop : s.op = opB64Dec)
    (h : decStep s = .next t) : Invariant t ∧ t.op = opB64Dec := by
  have hw := hs.width_pos
  have hmem := hs.mem_wf
  obtain ⟨-, ⟨-, hest, -⟩, hle, -, hregs⟩ := runInv_iff.1 (hs.runInv hp)
  replace hregs := hregs hop
  rw [hop, opB64Dec_eq, estimate_dec] at hest
  have henc (hop' : s.op = opB64Enc) : EncRegs t := absurd (hop.symm.trans hop') (by decide)
  obtain ⟨hlt, c, hc, rfl⟩ | ⟨hlt, hpos, v, e, hc, rfl⟩ | ⟨hlt, hpos, v, e, u, hc, hu, rfl⟩ | ⟨he, hpos, rfl⟩ |
    ⟨he, hpos, rfl⟩ := decStep_eq_next h
  case inl => exact ⟨hs.takeFail c, hop⟩
  case inr.inl =>
    exact ⟨hs.of_advances hp ⟨rfl, rfl, rfl, rfl, rfl, rfl, rfl⟩ hlt hmem henc fun _ => hregs.char hlt hpos hc, hop⟩
  case inr.inr.inl =>
    have hmemu := wf_emitAll hu hmem
    have hadv := advances_of_emitAll hu 0#24 0#2
    have hroom := hregs.room hlt hpos
    have hlen := (flushDec_length_le (shiftIn s.acc v) e).1
    have hdi := toNat_di_emitAll hu (by dsimp only; omega)
    obtain ⟨-, -, -, -, hend, -⟩ := emitAll_regs hu
    exact ⟨hs.of_advances hp hadv hlt hmemu henc
      fun _ => hregs.flush hlt hpos hc hend hadv.si hdi, hadv.op.trans hop⟩
  case inr.inr.inr.inl => exact ⟨hs.takeFail _, hop⟩
  case inr.inr.inr.inr =>
    obtain ⟨-, -, -, hdi, -⟩ := hregs
    refine ⟨invariant_takeDone hw hmem ?_, hop⟩
    unfold decodedLength at hest
    omega

/-! ### Commands and host actions -/

/-- R141: the engine's own step. -/
theorem engineStep_keeps {s t : State w} (hs : Invariant s) (h : engineStep s = .next t) : Invariant t := by
  unfold engineStep at h
  by_cases hp : s.phase = .run
  · rw [if_pos hp] at h
    have hT : isTransform s.op = true := (runInv_iff.1 (hs.runInv hp)).1
    have hop : s.op = opB64Enc ∨ s.op = opB64Dec := by simpa [isTransform] using hT
    rcases hop with hop | hop
    · exact (encStep_keeps hs hp hop (by simpa [hop] using h)).1
    · exact (decStep_keeps hs hp hop (by simpa [hop] using h)).1
  · rw [if_neg hp, Host.Outcome.next.injEq] at h
    exact h ▸ hs

/-- R102, R104, R108: a size estimator's operation. The invariant is asked for only where the command may start, since a
busy block has taken attachments that its `RunInv` does not speak of. -/
theorem estimator_keeps {op : BitVec 2} {f : State w → Result w}
    (hf : ∀ u : State w, f u = .next (takeDone (BitVec.ofNat w (estimate op u.len.toNat)) u))
    {n : Nat} {s t : State w} (hs : s.phase ≠ .run → Invariant s) (h : andThen (beginOp op n s) f = .next t) :
    Invariant t := by
  obtain ⟨u, hu, ht⟩ := andThen_eq_next h
  obtain ⟨⟨hp, hn, hest, -⟩, rfl⟩ := beginOp_eq_next hu
  rw [hf, Host.Outcome.next.injEq, startTransition_len, toNat_ofNat_of_admitted hn] at ht
  subst ht
  exact invariant_takeDone (s := startTransition op n s) (hs hp).width_pos (hs hp).mem_wf
    (by rwa [toNat_ofNat_of_admitted hest])

/-- R23: the start transition alone. -/
theorem beginOp_keeps {op : BitVec 2} (hop : op = opB64Enc ∨ op = opB64Dec) {n : Nat} {s t : State w}
    (hs : s.phase ≠ .run → Invariant s) (h : beginOp op n s = .next t) : Invariant t ∧ t.op = op := by
  obtain ⟨hc, rfl⟩ := beginOp_eq_next h
  exact ⟨(hs hc.1).startTransition hop hc, rfl⟩

/-- R72, R84: a transform's operation as one transition, the engine's steps from the start transition on. -/
theorem transform_keeps {op : BitVec 2} (hop : op = opB64Enc ∨ op = opB64Dec) {f : State w → Result w}
    (hf : ∀ s t : State w, Invariant s → s.phase = .run → s.op = op → f s = .next t → Invariant t ∧ t.op = op)
    {n k : Nat} {s t : State w} (hs : s.phase ≠ .run → Invariant s)
    (h : andThen (beginOp op n s) (runToDone f k) = .next t) : Invariant t := by
  obtain ⟨u, hu, ht⟩ := andThen_eq_next h
  exact (runToDone_induct (P := fun s => Invariant s ∧ s.op = op) (fun s t hp hs => hf s t hs.1 hp hs.2)
    (beginOp_keeps hop hs hu) ht).1

/-- D6: a command as one transition. -/
theorem execAt_keeps {i : Instr} {s t : State w} (hs : s.phase ≠ .run → Invariant s) (h : execAt i s = .next t) :
    Invariant t := by
  cases i with
  | b64enclen n => exact estimator_keeps (fun _ => rfl) hs h
  | b64declen n => exact estimator_keeps (fun _ => rfl) hs h
  | b64enc n => exact transform_keeps (.inl rfl) (fun _ _ => encStep_keeps) hs h
  | b64dec n => exact transform_keeps (.inr rfl) (fun _ _ => decStep_keeps) hs h

/-- R23, R109: a command that the host does not wait for. -/
theorem startOnly_keeps {i : Instr} {s t : State w} (hs : s.phase ≠ .run → Invariant s)
    (h : startOnly i s = .next t) : Invariant t := by
  cases i with
  | b64enclen n => exact estimator_keeps (fun _ => rfl) hs h
  | b64declen n => exact estimator_keeps (fun _ => rfl) hs h
  | b64enc n => exact (beginOp_keeps (.inl rfl) hs h).1
  | b64dec n => exact (beginOp_keeps (.inr rfl) hs h).1

/-- Each host action (log 6). -/
theorem deliver_keeps {a : HostAction w} {s t : State w} (hs : Invariant s) (h : deliver a s = .next t) :
    Invariant t := by
  cases a with
  | call c => exact execAt_keeps (s := attach c.bufs s) (fun hp => hs.attach hp c.bufs) h
  | start c => exact startOnly_keeps (s := attach c.bufs s) (fun hp => hs.attach hp c.bufs) h
  | pass => exact engineStep_keeps hs h
  | write a v =>
    rw [deliver] at h
    split at h
    · cases h
    · exact Host.Outcome.next.inj h ▸ hs.write a v
  | read a =>
    rw [deliver] at h
    split at h
    · cases h
    · exact Host.Outcome.next.inj h ▸ hs
  | reset => exact Host.Outcome.next.inj h ▸ hs.powerReset

end KeepsInvariant

/-- Settles O50: the host's next action or the engine's own step, each of which keeps the invariant; the actions still
pending are no part of it. -/
theorem stepKeepsInvariant : Obligations.StepKeepsInvariant := by
  intro w s t hs h
  unfold stepAt at h
  split at h
  case h_1 => exact engineStep_keeps hs h
  case h_2 a rest _ =>
    have hrest : Invariant { s with inbox := rest } := hs
    exact deliver_keeps hrest h

end Sys2Proof.Machine

/-! ## The life of an operation: O16, O52, O58, O60, O6, O49

What one engine step does to the outcome registers and to `PHASE` is said once (`engineStep_eq_next`), then for a
command, and then for a step of the machine (`stepAt_effect`); the statements about `PHASE`, `RESULT` and `STATUS.FAIL`
are read off these. -/

namespace Sys2Proof.Machine

section Life
variable {w : Nat}

/-! ### One step of a transform, and a whole operation -/

/-- R73 to R78: a step of the encoder takes one more byte, or ends the operation. -/
theorem encStep_advances_or_ends {s t : State w} (h : encStep s = .next t) :
    s.si < s.len ∧ Advances s t ∨ t.phase = .done := by
  obtain ⟨hlt, -, rfl⟩ | ⟨hlt, -, u, hu, rfl⟩ | ⟨-, -, rfl⟩ | ⟨-, -, u, -, rfl⟩ | ⟨-, -, u, -, rfl⟩ :=
    encStep_eq_next h
  case inl => exact .inl ⟨hlt, rfl, rfl, rfl, rfl, rfl, rfl, rfl⟩
  case inr.inl => exact .inl ⟨hlt, advances_of_emitAll hu _ _⟩
  all_goals exact .inr rfl

/-- R85 to R92: a step of the decoder takes one more character, or ends the operation. -/
theorem decStep_advances_or_ends {s t : State w} (h : decStep s = .next t) :
    s.si < s.len ∧ Advances s t ∨ t.phase = .done := by
  obtain ⟨-, c, -, rfl⟩ | ⟨hlt, -, v, e, -, rfl⟩ | ⟨hlt, -, v, e, u, -, hu, rfl⟩ | ⟨-, -, rfl⟩ | ⟨-, -, rfl⟩ :=
    decStep_eq_next h
  case inr.inl => exact .inl ⟨hlt, rfl, rfl, rfl, rfl, rfl, rfl, rfl⟩
  case inr.inr.inl => exact .inl ⟨hlt, advances_of_emitAll hu _ _⟩
  all_goals exact .inr rfl

/-- R72, R84: an operation whose every step takes one more element or ends it has ended after `LEN - SI + 1` steps. -/
theorem runToDone_ends {f : State w → Result w}
    (hf : ∀ s t, f s = .next t → s.si < s.len ∧ Advances s t ∨ t.phase = .done) {k : Nat} {s t : State w}
    (hp : s.phase = .run) (hk : s.len.toNat - s.si.toNat < k) (h : runToDone f k s = .next t) : t.phase = .done := by
  induction k generalizing s with
  | zero => omega
  | succ k ih =>
    rw [runToDone_run hp] at h
    obtain ⟨u, hu, ht⟩ := andThen_eq_next h
    rcases hf s u hu with ⟨hlt, hadv⟩ | hdone
    · obtain ⟨hsi, hle⟩ := toNat_si_succ hlt
      exact ih (hadv.phase.trans hp) (by rw [hadv.len, hadv.si, hsi]; omega) ht
    · rw [runToDone_stop (by simp [hdone]), Host.Outcome.next.injEq] at ht
      exact ht ▸ hdone

/-! ### The engine's own step -/

/-- R130: outside an operation the block waits. -/
theorem engineStep_of_not_run {s : State w} (hp : s.phase ≠ .run) : engineStep s = .next s := if_neg hp

/-- R21, R47: the encoder's step while it runs. -/
theorem engineStep_of_enc {s : State w} (hp : s.phase = .run) (hop : s.op = opB64Enc) :
    engineStep s = encStep s := by
  simp [engineStep, hp, hop]

/-- R21, R47: the decoder's step while it runs. -/
theorem engineStep_of_dec {s : State w} (hp : s.phase = .run) (hop : s.op = opB64Dec) :
    engineStep s = decStep s := by
  simp [engineStep, hp, hop]

/-- R21: what the engine's step can answer with a next state. -/
theorem engineStep_eq_next {s t : State w} (h : engineStep s = .next t) :
    s.phase ≠ .run ∧ t = s ∨ s.phase = .run ∧ (Advances s t ∨ t.phase = .done) := by
  by_cases hp : s.phase = .run
  · refine .inr ⟨hp, ?_⟩
    rw [engineStep, if_pos hp] at h
    split_ifs at h
    · exact .inr (Host.Outcome.next.inj h ▸ rfl)
    · exact .inr (Host.Outcome.next.inj h ▸ rfl)
    · exact (encStep_advances_or_ends h).imp_left And.right
    · exact (decStep_advances_or_ends h).imp_left And.right
  · rw [engineStep_of_not_run hp] at h
    exact .inl ⟨hp, (Host.Outcome.next.inj h).symm⟩

/-! ### A command -/

/-- A meaning that begins with the start transition answers a next state only where the command may start. -/
theorem andThen_beginOp_eq_next {f : State w → Result w} {op : BitVec 2} {n : Nat} {s t : State w}
    (h : andThen (beginOp op n s) f = .next t) : CanStart op n s ∧ f (startTransition op n s) = .next t := by
  obtain ⟨u, hu, ht⟩ := andThen_eq_next h
  obtain ⟨hc, rfl⟩ := beginOp_eq_next hu
  exact ⟨hc, ht⟩

/-- R109: a size estimator's operation is over in the step that starts it. -/
theorem estimator_ends {f : State w → Result w} (hf : ∀ u t, f u = .next t → t.phase = .done) {op : BitVec 2} {n : Nat}
    {s t : State w} (h : andThen (beginOp op n s) f = .next t) : s.phase ≠ .run ∧ t.phase = .done := by
  obtain ⟨hc, ht⟩ := andThen_beginOp_eq_next h
  exact ⟨hc.1, hf _ _ ht⟩

theorem encLenStep_ends {s t : State w} (h : encLenStep s = .next t) : t.phase = .done :=
  Host.Outcome.next.inj h ▸ rfl

theorem decLenStep_ends {s t : State w} (h : decLenStep s = .next t) : t.phase = .done :=
  Host.Outcome.next.inj h ▸ rfl

/-- R72, R84: `LEN + 1` steps from the start transition on suffice for a transform. -/
theorem transform_ends {f : State w → Result w}
    (hf : ∀ s t, f s = .next t → s.si < s.len ∧ Advances s t ∨ t.phase = .done) {op : BitVec 2} {n : Nat}
    {s t : State w} (h : andThen (beginOp op n s) (runToDone f (n + 1)) = .next t) :
    s.phase ≠ .run ∧ t.phase = .done := by
  obtain ⟨⟨hp, hn, -⟩, ht⟩ := andThen_beginOp_eq_next h
  exact ⟨hp, runToDone_ends hf rfl (by simp [toNat_ofNat_of_admitted hn]) ht⟩

/-- D6, R138: a command as one transition leads from outside an operation to the end of its own. -/
theorem execAt_ends {i : Instr} {s t : State w} (h : execAt i s = .next t) : s.phase ≠ .run ∧ t.phase = .done := by
  cases i with
  | b64enclen n => exact estimator_ends (fun _ _ => encLenStep_ends) h
  | b64declen n => exact estimator_ends (fun _ _ => decLenStep_ends) h
  | b64enc n => exact transform_ends (fun _ _ => encStep_advances_or_ends) h
  | b64dec n => exact transform_ends (fun _ _ => decStep_advances_or_ends) h

/-- R23: a transform that the host does not wait for is started, no more. -/
theorem startOnly_transform {i : Instr} (hT : isTransform (opOf i) = true) (s : State w) :
    startOnly i s = beginOp (opOf i) i.lenOf s := by
  cases i with
  | b64enclen n => simp [opOf] at hT
  | b64declen n => simp [opOf] at hT
  | b64enc n => rfl
  | b64dec n => rfl

/-- R109: for a size estimator, waiting or not makes no difference. -/
theorem startOnly_estimator {i : Instr} (hT : isTransform (opOf i) = false) (s : State w) :
    startOnly i s = execAt i s := by
  cases i with
  | b64enclen n => rfl
  | b64declen n => rfl
  | b64enc n => simp [opOf] at hT
  | b64dec n => simp [opOf] at hT

/-- R46, R47: the operation code of the decoded command is the word's `OP` field. -/
theorem opOf_decode (c : CommandWord w) : opOf (decode c) = opField c := by
  have hlast : ∀ op : BitVec 2, op ≠ opB64EncLen → op ≠ opB64DecLen → op ≠ opB64Enc → opB64Dec = op := by decide
  rw [decode]
  split_ifs with h0 h1 h2
  · exact h0.symm
  · exact h1.symm
  · exact h2.symm
  · exact hlast _ h0 h1 h2

/-! ### A step of the machine -/

/-- R21, R22, log 7: what a step that answers a next state can do to `PHASE`, `RESULT` and `STATUS.FAIL`, and which host
action it then was. -/
inductive StepEffect (s t : State w) : Prop where
  /-- Nothing is started, ended or reset. -/
  | keeps (hphase : t.phase = s.phase) (hresult : t.result = s.result) (hfail : t.fail = s.fail)
  /-- The operation in progress ends. -/
  | ends (hrun : s.phase = .run) (hdone : t.phase = .done)
  /-- A command is taken from its start to its end: any command that is waited for. -/
  | call (c : Command w) (rest : List (HostAction w)) (hin : s.inbox = .call c :: rest) (hfree : s.phase ≠ .run)
      (hdone : t.phase = .done)
  /-- A size estimator that is not waited for ends all the same (R109). -/
  | estimate (c : Command w) (rest : List (HostAction w)) (hin : s.inbox = .start c :: rest)
      (hT : isTransform (opField c.word) = false) (hfree : s.phase ≠ .run) (hdone : t.phase = .done)
  /-- A transform starts (R23). -/
  | start (c : Command w) (rest : List (HostAction w)) (hin : s.inbox = .start c :: rest)
      (hT : isTransform (opField c.word) = true) (hfree : s.phase ≠ .run) (hrun : t.phase = .run)
      (hresult : t.result = s.result) (hfail : t.fail = s.fail)
  /-- Power-on reset (R130). -/
  | reset (rest : List (HostAction w)) (hin : s.inbox = .reset :: rest) (hidle : t.phase = .idle)

/-- The engine's own step, whatever the host has pending. -/
theorem engineStep_effect {s t : State w} {q : List (HostAction w)} (h : engineStep { s with inbox := q } = .next t) :
    StepEffect s t := by
  obtain ⟨-, rfl⟩ | ⟨-, hadv⟩ | ⟨hp, hdone⟩ := (engineStep_eq_next h).imp_right and_or_left.1
  · exact .keeps rfl rfl rfl
  · exact .keeps hadv.phase hadv.result hadv.fail
  · exact .ends hp hdone

/-- Log 6: the effect of a step, by the host's next action. -/
theorem stepAt_effect {s t : State w} (h : stepAt s = .next t) : StepEffect s t := by
  rw [stepAt] at h
  split at h
  case h_1 => exact engineStep_effect (q := s.inbox) h
  case h_2 a rest hin =>
    cases a with
    | call c =>
      obtain ⟨hfree, hdone⟩ := execAt_ends h
      exact .call c rest hin hfree hdone
    | start c =>
      rw [deliver] at h
      cases hT : isTransform (opField c.word) with
      | false =>
        rw [startOnly_estimator (by rw [opOf_decode, hT])] at h
        obtain ⟨hfree, hdone⟩ := execAt_ends h
        exact .estimate c rest hin hT hfree hdone
      | true =>
        rw [startOnly_transform (by rw [opOf_decode, hT])] at h
        obtain ⟨⟨hfree, -⟩, rfl⟩ := beginOp_eq_next h
        exact .start c rest hin hT hfree rfl rfl rfl
    | pass => exact engineStep_effect h
    | write a v =>
      rw [deliver] at h
      split at h
      · cases h
      · exact Host.Outcome.next.inj h ▸ .keeps rfl rfl rfl
    | read a =>
      rw [deliver] at h
      split at h
      · cases h
      · exact Host.Outcome.next.inj h ▸ .keeps rfl rfl rfl
    | reset => exact .reset rest hin (Host.Outcome.next.inj h ▸ rfl)

/-- R21, R137: the status bits, and what the host may read, are functions of `PHASE`. -/
theorem status_of_phase (s : State w) :
    (s.busy = true ↔ s.phase = .run) ∧ (s.isDone = true ↔ s.phase = .done) ∧
      s.hostResult = if s.phase = .done then some (s.result, s.fail) else none := by
  simp [State.busy, State.isDone, State.hostResult]

/-! ### No state without an enabled step -/

/-- What `andThen` can answer with a fault. -/
theorem andThen_eq_fault {o : Result w} {f : State w → Result w} {r : Fault} (h : andThen o f = .fault r) :
    o = .fault r ∨ ∃ s, o = .next s ∧ f s = .fault r := by
  cases o with
  | next s => exact .inr ⟨s, rfl, h⟩
  | fault x => exact .inl h
  | refused x => cases h

/-- R38: a flush stops for want of room only. -/
theorem emitAll_eq_fault {bs : List Byte} {s : State w} {r : Fault} (h : emitAll bs s = .fault r) :
    r = .dstOverrun := by
  induction bs generalizing s with
  | nil => cases h
  | cons b bs ih =>
    rw [emitAll, emit] at h
    split at h
    · exact ih h
    · exact (Host.Outcome.fault.inj h).symm

/-- A step that ends in a flush is an enabled step. -/
theorem flush_enabled (bs : List Byte) (s : State w) (f : State w → State w) :
    andThen (emitAll bs s) (fun t => .next (f t)) ≠ .fault .noEnabledStep := by
  intro h
  obtain hemit | ⟨u, -, hnext⟩ := andThen_eq_fault h
  · cases emitAll_eq_fault hemit
  · cases hnext

/-- R16, R18, R75: the encoder has an enabled step up to the end of its source, for every `POS` but 3. -/
theorem encStep_enabled {s : State w} (hle : s.si.toNat ≤ s.len.toNat) (hpos : s.pos ≠ 3#2) :
    encStep s ≠ .fault .noEnabledStep := by
  rw [encStep]
  by_cases hlt : s.si < s.len
  · rw [if_pos hlt, encByte]
    dsimp only
    split
    · simp
    · exact flush_enabled _ _ _
  · have hend : s.si = s.len := by bv_omega
    rw [if_neg hlt, if_pos hend, encClose]
    split_ifs with h2 h1 h0
    · simp
    · exact flush_enabled _ _ _
    · exact flush_enabled _ _ _
    · bv_omega

/-- R18, R91: the decoder has an enabled step up to the end of its source. -/
theorem decStep_enabled {s : State w} (hle : s.si.toNat ≤ s.len.toNat) : decStep s ≠ .fault .noEnabledStep := by
  rw [decStep]
  by_cases hlt : s.si < s.len
  · rw [if_pos hlt, decChar]
    split
    · simp
    · dsimp only
      split
      · simp
      · exact flush_enabled _ _ _
  · have hend : s.si = s.len := by bv_omega
    rw [if_neg hlt, if_pos hend, decClose]
    split <;> simp

/-- R16: `POS` is never 3 while the encoder runs. -/
theorem EncRegs.pos_ne_three {s : State w} (h : EncRegs s) : s.pos ≠ 3#2 := by
  obtain ⟨-, hsum, -, -⟩ := h
  intro hpos
  simp [hpos] at hsum
  omega

/-- The encoder's invariant enables a step. -/
theorem Invariant.encStep_enabled {s : State w} (h : Invariant s) (hp : s.phase = .run) (hop : s.op = opB64Enc) :
    encStep s ≠ .fault .noEnabledStep := by
  obtain ⟨-, -, hle, henc, -⟩ := runInv_iff.1 (h.runInv hp)
  exact Machine.encStep_enabled hle (henc hop).pos_ne_three

/-- The decoder's invariant enables a step. -/
theorem Invariant.decStep_enabled {s : State w} (h : Invariant s) (hp : s.phase = .run) :
    decStep s ≠ .fault .noEnabledStep := by
  obtain ⟨-, -, hle, -, -⟩ := runInv_iff.1 (h.runInv hp)
  exact Machine.decStep_enabled hle

/-- An operation in progress is one of the two transforms (R109). -/
theorem Invariant.op_of_run {s : State w} (h : Invariant s) (hp : s.phase = .run) :
    s.op = opB64Enc ∨ s.op = opB64Dec := by
  obtain ⟨hT, -⟩ := runInv_iff.1 (h.runInv hp)
  simpa [isTransform] using hT

/-- R21, R142: the engine's own step. -/
theorem Invariant.engineStep_enabled {s : State w} (h : Invariant s) : engineStep s ≠ .fault .noEnabledStep := by
  by_cases hp : s.phase = .run
  · rcases h.op_of_run hp with hop | hop
    · rw [engineStep_of_enc hp hop]
      exact h.encStep_enabled hp hop
    · rw [engineStep_of_dec hp hop]
      exact h.decStep_enabled hp
  · rw [engineStep_of_not_run hp]
    simp

/-- A fault that no step of an operation raises, under what its steps keep, the operation does not raise. -/
theorem runToDone_ne_fault {f : State w → Result w} {P : State w → Prop} {r : Fault}
    (hkeep : ∀ s t, s.phase = .run → P s → f s = .next t → P t) (hf : ∀ s, s.phase = .run → P s → f s ≠ .fault r)
    {k : Nat} {s : State w} (hs : P s) : runToDone f k s ≠ .fault r := by
  induction k generalizing s with
  | zero => simp
  | succ k ih =>
    by_cases hp : s.phase = .run
    · rw [runToDone_run hp]
      intro h
      obtain hnow | ⟨u, hu, hlater⟩ := andThen_eq_fault h
      · exact hf s hp hs hnow
      · exact ih (hkeep s u hp hs hu) hlater
    · rw [runToDone_stop hp]
      simp

/-- R109: a size estimator does not fault. -/
theorem estimator_ne_fault {f : State w → Result w} {r : Fault} (hf : ∀ u, f u ≠ .fault r) (op : BitVec 2) (n : Nat)
    (s : State w) : andThen (beginOp op n s) f ≠ .fault r := by
  intro h
  obtain hbegin | ⟨u, -, hstep⟩ := andThen_eq_fault h
  · exact beginOp_ne_fault op n s r hbegin
  · exact hf u hstep

/-- R142: a transform's operation, from its start transition on. As in `transform_keeps`, the invariant is asked for
only where the command may start. -/
theorem transform_enabled {op : BitVec 2} (hop : op = opB64Enc ∨ op = opB64Dec) {f : State w → Result w}
    (hkeep : ∀ s t : State w, Invariant s → s.phase = .run → s.op = op → f s = .next t → Invariant t ∧ t.op = op)
    (hf : ∀ s : State w, Invariant s → s.phase = .run → s.op = op → f s ≠ .fault .noEnabledStep) {n k : Nat}
    {s : State w} (hs : s.phase ≠ .run → Invariant s) :
    andThen (beginOp op n s) (runToDone f k) ≠ .fault .noEnabledStep := by
  intro h
  obtain hbegin | ⟨u, hu, hrun⟩ := andThen_eq_fault h
  · exact beginOp_ne_fault op n s _ hbegin
  · exact runToDone_ne_fault (P := fun s => Invariant s ∧ s.op = op)
      (fun s t hp hs => hkeep s t hs.1 hp hs.2) (fun s hp hs => hf s hs.1 hp hs.2) (beginOp_keeps hop hs hu) hrun

/-- D6: a command as one transition. -/
theorem execAt_enabled {i : Instr} {s : State w} (hs : s.phase ≠ .run → Invariant s) :
    execAt i s ≠ .fault .noEnabledStep := by
  cases i with
  | b64enclen n => exact estimator_ne_fault (fun _ => by simp [encLenStep]) _ n s
  | b64declen n => exact estimator_ne_fault (fun _ => by simp [decLenStep]) _ n s
  | b64enc n =>
    exact transform_enabled (.inl rfl) (fun _ _ => encStep_keeps) (fun _ => Invariant.encStep_enabled) hs
  | b64dec n =>
    exact transform_enabled (.inr rfl) (fun _ _ => decStep_keeps) (fun _ h hp _ => h.decStep_enabled hp) hs

/-- R23, R109: a command that the host does not wait for. -/
theorem startOnly_enabled {i : Instr} {s : State w} (hs : s.phase ≠ .run → Invariant s) :
    startOnly i s ≠ .fault .noEnabledStep := by
  cases hT : isTransform (opOf i) with
  | false =>
    rw [startOnly_estimator hT]
    exact execAt_enabled hs
  | true =>
    rw [startOnly_transform hT]
    exact beginOp_ne_fault _ _ _ _

/-- Each host action (log 6). -/
theorem deliver_enabled {a : HostAction w} {s : State w} (hs : Invariant s) : deliver a s ≠ .fault .noEnabledStep := by
  cases a with
  | call c => exact execAt_enabled (s := attach c.bufs s) fun hp => hs.attach hp c.bufs
  | start c => exact startOnly_enabled (s := attach c.bufs s) fun hp => hs.attach hp c.bufs
  | pass => exact hs.engineStep_enabled
  | write a v => rw [deliver]; split <;> simp
  | read a => rw [deliver]; split <;> simp
  | reset => simp [deliver]

/-! ### Reset -/

/-- R26, R130: the reset state, at every width that has a bit. -/
theorem invariant_resetAt (hw : 0 < w) : Invariant (State.resetAt w) := by
  have hmem : (State.resetAt w).mem.wf := by simp [State.resetAt, Memory.wf]
  have h0 : (0 : Word w).toNat < 2 ^ (w - 1) := by simp
  exact ⟨hw, hmem, by simpa [State.resetAt] using ne_failVal_of_admitted hw h0, fun _ => h0, fun _ => ⟨rfl, rfl⟩,
    fun hrun => nomatch hrun⟩

end Life

/-- Settles O60: each effect that a step can have, read for each rule of `PHASE`. -/
theorem phaseTransitionsAndStatusBits : Obligations.PhaseTransitionsAndStatusBits := by
  intro w s t h
  refine ⟨status_of_phase s, ?_⟩
  cases stepAt_effect h with
  | keeps hphase hresult hfail => simp +contextual [hphase, hresult, hfail]
  | ends hrun hdone => simp [hrun, hdone]
  | call c rest hin hfree hdone => simp [hin, hfree, hdone]
  | estimate c rest hin hT hfree hdone => simp [hin, hT, hfree, hdone]
  | start c rest hin hT hfree hrun hresult hfail => simp [hin, hT, hfree, hrun, hresult, hfail]
  | reset rest hin hidle => simp [hin, hidle]

/-- Settles O52: the host's next action or the engine's own step, none of which is stuck under the invariant. -/
theorem engineNeverStuck : Obligations.EngineNeverStuck := by
  intro w s hs
  rw [stepAt]
  split
  case h_1 => exact hs.engineStep_enabled
  case h_2 a rest _ =>
    have hrest : Invariant { s with inbox := rest } := hs
    exact deliver_enabled hrest

/-- Settles O16: the start transition of a command that may start, and the engine steps that do not end the
operation, which only advance it. -/
theorem startTransitionSetsWorkingRegisters : Obligations.StartTransitionSetsWorkingRegisters := by
  refine fun w => ⟨fun i s hc => ⟨initialPos (opOf i) s.pos, beginOp_of_canStart hc, fun henc => ?_, fun hdec => ?_,
    fun hT => startOnly_transform hT s⟩, fun s t hp h hrun => ?_⟩
  · rw [henc, initialPos_enc]
  · rw [hdec, initialPos_dec]
  · obtain ⟨hfree, -⟩ | ⟨-, hadv | hdone⟩ := engineStep_eq_next h
    · exact absurd hp hfree
    · exact ⟨hadv.result, hadv.fail⟩
    · cases hrun.symm.trans hdone

/-- Settles O58: the step is `powerReset`, which loses the destination only of an operation in progress. -/
theorem resetAbandonsOperation : Obligations.ResetAbandonsOperation := by
  intro w s rest hin
  have hstep : stepAt s = .next (powerReset { s with inbox := rest }) := by rw [stepAt, hin]; rfl
  refine ⟨_, hstep, rfl, rfl, rfl, powerReset_inbox _, fun hp => ?_, fun hp => ?_⟩ <;> rw [powerReset_mem]
  · exact if_neg hp
  · rw [if_pos hp]
    exact ⟨fun _ => loseDst_read_outside { s with inbox := rest },
      fun _ => loseDst_read_inside { s with inbox := rest }⟩

/-- Settles O6: with no action pending the step is the engine's own. -/
theorem stepWithoutHostAction : Obligations.StepWithoutHostAction := by
  intro w s hi
  rw [stepAt_engine hi]
  exact ⟨engineStep_of_not_run, engineStep_of_enc, engineStep_of_dec⟩

/-- Settles O49: the default width is one of the widths that have a bit. -/
theorem invariantAtReset : Obligations.InvariantAtReset :=
  ⟨invariant_resetAt (by decide), fun _ => invariant_resetAt⟩

end Sys2Proof.Machine

/-! ## An operation as one transition and step by step, refusals, host accesses: O54, O14, O19, O57, O59 -/

namespace Sys2Proof.Machine

section Operation
variable {w : Nat}

/-! ### What every step of a transform leaves alone -/

/-- The command in progress, its attachments and the host's pending actions, none of which a step of a transform
writes, not even the failure exit (R116). -/
structure SameCommand (s t : State w) : Prop where
  op : t.op = s.op
  len : t.len = s.len
  bufs : t.bufs = s.bufs
  inbox : t.inbox = s.inbox

/-- A flush is of the command in progress, whatever registers it sets before and after. -/
theorem sameCommand_of_emitAll {bs : List Byte} {s t : State w} (h : emitAll bs s = .next t) : SameCommand s t := by
  obtain ⟨hop, hlen, -, -, -, -, -, -, -, hbufs, -, hinbox⟩ := emitAll_regs h
  exact ⟨hop, hlen, hbufs, hinbox⟩

theorem SameCommand.trans {s t u : State w} (h : SameCommand s t) (h' : SameCommand t u) : SameCommand s u :=
  ⟨h'.op.trans h.op, h'.len.trans h.len, h'.bufs.trans h.bufs, h'.inbox.trans h.inbox⟩

theorem encStep_sameCommand {s t : State w} (h : encStep s = .next t) : SameCommand s t := by
  obtain ⟨-, -, rfl⟩ | ⟨-, -, u, hu, rfl⟩ | ⟨-, -, rfl⟩ | ⟨-, -, u, hu, rfl⟩ | ⟨-, -, u, hu, rfl⟩ := encStep_eq_next h
  case inl | inr.inr.inl => exact ⟨rfl, rfl, rfl, rfl⟩
  all_goals
    obtain ⟨hop, hlen, hbufs, hinbox⟩ := sameCommand_of_emitAll hu
    exact ⟨hop, hlen, hbufs, hinbox⟩

theorem decStep_sameCommand {s t : State w} (h : decStep s = .next t) : SameCommand s t := by
  obtain ⟨-, c, -, rfl⟩ | ⟨-, -, v, e, -, rfl⟩ | ⟨-, -, v, e, u, -, hu, rfl⟩ | ⟨-, -, rfl⟩ | ⟨-, -, rfl⟩ :=
    decStep_eq_next h
  case inr.inr.inl =>
    obtain ⟨hop, hlen, hbufs, hinbox⟩ := sameCommand_of_emitAll hu
    exact ⟨hop, hlen, hbufs, hinbox⟩
  all_goals exact ⟨rfl, rfl, rfl, rfl⟩

/-! ### One transition and its steps -/

/-- R72, R84: repeating a transform's step until it ends is letting the engine take its own steps, since a block whose
operation has ended waits (R130). -/
theorem runToDone_eq_runSteps {f : State w → Result w} {op : BitVec 2}
    (hf : ∀ s, s.phase = .run → s.op = op → engineStep s = f s) (hkeep : ∀ s t, f s = .next t → SameCommand s t)
    (k : Nat) {s : State w} (hop : s.op = op) (hi : s.inbox = []) : runToDone f k s = runSteps k s := by
  induction k generalizing s with
  | zero => rfl
  | succ k ih =>
    by_cases hp : s.phase = .run
    · rw [runToDone_run hp, runSteps_succ k hi, hf s hp hop]
      cases hs : f s with
      | next u => exact ih ((hkeep s u hs).op.trans hop) ((hkeep s u hs).inbox.trans hi)
      | fault r => rfl
      | refused r => rfl
    · rw [runToDone_stop hp, runSteps_idle hi hp]

/-- A meaning that begins with the start transition goes on from it where the command may start. -/
theorem andThen_beginOp {op : BitVec 2} {n : Nat} {s : State w} (hc : CanStart op n s) (f : State w → Result w) :
    andThen (beginOp op n s) f = f (startTransition op n s) := by
  rw [beginOp_of_canStart hc, andThen_next]

/-- D6: a transform as one transition is the engine's `LEN + 1` steps from its start transition on. -/
theorem execAt_transform_eq_runSteps {i : Instr} {s : State w} (hT : isTransform (opOf i) = true)
    (hc : CanStart (opOf i) i.lenOf s) (hi : s.inbox = []) :
    execAt i s = runSteps (i.lenOf + 1) (startTransition (opOf i) i.lenOf s) := by
  cases i with
  | b64enclen n => simp [opOf] at hT
  | b64declen n => simp [opOf] at hT
  | b64enc n =>
    exact (andThen_beginOp hc _).trans
      (runToDone_eq_runSteps (fun _ => engineStep_of_enc) (fun _ _ => encStep_sameCommand) _ rfl hi)
  | b64dec n =>
    exact (andThen_beginOp hc _).trans
      (runToDone_eq_runSteps (fun _ => engineStep_of_dec) (fun _ _ => decStep_sameCommand) _ rfl hi)

/-! ### The size estimators -/

/-- R109: an operation that is the start transition and the `RESULT` write; the bound of R108 keeps the value whole. -/
theorem estimator_eq_next {op : BitVec 2} {f : State w → Result w}
    (hf : ∀ u : State w, f u = .next (takeDone (BitVec.ofNat w (estimate op u.len.toNat)) u)) {n : Nat} {s t : State w}
    (h : andThen (beginOp op n s) f = .next t) :
    t = takeDone (BitVec.ofNat w (estimate op n)) (startTransition op n s) ∧ t.result.toNat = estimate op n := by
  obtain ⟨⟨-, hn, hest, -⟩, ht⟩ := andThen_beginOp_eq_next h
  rw [hf, Host.Outcome.next.injEq, startTransition_len, toNat_ofNat_of_admitted hn] at ht
  subst ht
  exact ⟨rfl, toNat_ofNat_of_admitted hest⟩

/-- R102, R104, R109: what a size estimator can answer with a next state. -/
theorem execAt_estimator_eq_next {i : Instr} {s t : State w} (hT : isTransform (opOf i) = false)
    (h : execAt i s = .next t) :
    t = takeDone (BitVec.ofNat w (estimate (opOf i) i.lenOf)) (startTransition (opOf i) i.lenOf s) ∧
      t.result.toNat = estimate (opOf i) i.lenOf := by
  cases i with
  | b64enclen n => exact estimator_eq_next (fun _ => rfl) h
  | b64declen n => exact estimator_eq_next (fun _ => rfl) h
  | b64enc n => simp [opOf] at hT
  | b64dec n => simp [opOf] at hT

/-! ### Shared elements -/

/-- R43: two ranges of addresses meet exactly where some address lies in both, the higher of the two starts if any. -/
theorem overlap_iff_exists {b : Buffers} {n : Nat} :
    b.overlap n = true ↔ ∃ a, b.src ≤ a ∧ a < b.src + n ∧ b.dst ≤ a ∧ a < b.dst + b.dcap := by
  rw [Buffers.overlap, decide_eq_true_eq]
  constructor
  · intro h
    exact ⟨max b.src b.dst, by omega⟩
  · rintro ⟨a, ha⟩
    omega

/-- R126: with the other two duties met, a transform is refused for its buffers or not at all. -/
theorem startRefusal_eq_buffersOverlap {op : BitVec 2} {n : Nat} {s : State w} (hp : s.phase ≠ .run)
    (hT : isTransform op = true) (hn : n < 2 ^ (w - 1)) (hest : estimate op n < 2 ^ (w - 1)) :
    startRefusal op n s = some .buffersOverlap ↔ s.bufs.overlap n = true := by
  have hfree : s.busy = false := by simpa [State.busy] using hp
  have hadm : admitted w op n = true := by simp [admitted, hn, hest]
  simp [startRefusal, hfree, hadm, hT]

theorem decodedLength_le (n : Nat) : decodedLength n ≤ n := by
  unfold decodedLength
  omega

/-! ### Memory -/

/-- A canonical memory without unspecified elements lists exactly the bytes other than 0x00 that it reads. -/
theorem Memory.listGet_cells {m : Memory} (h : m.wf) (hu : m.unspec = []) (a : Nat) :
    listGet a m.cells = if m.read a = 0#8 then none else some (m.read a) := by
  obtain ⟨-, -, hne, -⟩ := h
  have hread : m.read a = (listGet a m.cells).getD 0#8 := by simp [Memory.read, hu, listGet]
  rw [hread]
  cases hg : listGet a m.cells with
  | none => rfl
  | some v => exact (if_neg (hne _ (mem_of_listGet hg))).symm

end Operation

/-- Settles O54: a size estimator has ended in the step that starts it; a transform goes on from its start transition
by the engine's own steps. -/
theorem callEqualsStartThenSteps : Obligations.CallEqualsStartThenSteps := by
  intro w i s t hi h
  cases hT : isTransform (opOf i) with
  | false =>
    rw [startOnly_estimator hT] at h
    obtain ⟨ht, -⟩ := execAt_estimator_eq_next hT h
    have hinbox : t.inbox = [] := by rw [ht, takeDone_inbox, startTransition_inbox, hi]
    rw [h, runSteps_idle hinbox (by simp [(execAt_ends h).2])]
  | true =>
    rw [startOnly_transform hT] at h
    obtain ⟨hc, rfl⟩ := beginOp_eq_next h
    exact execAt_transform_eq_runSteps hT hc hi

/-- Settles O14: the start transition and the `RESULT` write, which are all that an estimator does. -/
theorem estimatorFrame : Obligations.EstimatorFrame := by
  intro w n s t
  constructor
  · intro h
    obtain ⟨rfl, hresult⟩ := execAt_estimator_eq_next (i := .b64enclen n) rfl h
    exact ⟨rfl, hresult⟩
  · intro h
    obtain ⟨rfl, hresult⟩ := execAt_estimator_eq_next (i := .b64declen n) rfl h
    exact ⟨rfl, hresult⟩

/-- Settles O19: the start is the only thing that refuses, and the overlap test is the meeting of the two ranges. -/
theorem sharedBufferElementRefused : Obligations.SharedBufferElementRefused := by
  intro w n s hp hn
  have hdec : estimate opB64Dec n < 2 ^ (w - 1) := (decodedLength_le n).trans_lt hn
  rw [← overlap_iff_exists]
  refine ⟨fun henc => ?_, ?_⟩
  · rw [← startRefusal_eq_buffersOverlap (op := opB64Enc) hp rfl hn henc]
    exact (andThen_beginOp_eq_refused (runToDone_ne_refused encStep_ne_refused _) _ _ _ _).symm
  · rw [← startRefusal_eq_buffersOverlap hp rfl hn hdec]
    exact (andThen_beginOp_eq_refused (runToDone_ne_refused decStep_ne_refused _) _ _ _ _).symm

/-- Settles O59: both memories list the bytes other than 0x00 that they read, in the one order there is. -/
theorem equalReadingMemoriesAreEqual : Obligations.EqualReadingMemoriesAreEqual := by
  rintro ⟨cells, unspec⟩ ⟨cells', unspec'⟩ hm hm' hu hu' hread
  have hget (a : Nat) : listGet a cells = listGet a cells' :=
    calc listGet a cells = _ := Memory.listGet_cells hm hu a
      _ = _ := by rw [hread a]
      _ = listGet a cells' := (Memory.listGet_cells hm' hu' a).symm
  have hcells : cells = cells' := eq_of_listGet_eq hm.1 hm'.1 hget
  rw [Memory.mk.injEq]
  exact ⟨hcells, hu.trans hu'.symm⟩

/-- Settles O57: the host's action is the step, and it is refused by the test that `deliver` makes. -/
theorem hostAccessToBuffersInUse : Obligations.HostAccessToBuffersInUse := by
  intro w s rest a v
  constructor
  · intro hin
    rw [stepAt, hin]
    simp [deliver, State.busy, State.inDst, State.inSrc]
  · intro hin
    rw [stepAt, hin]
    simp [deliver, State.busy, State.inDst]

end Sys2Proof.Machine

/-! ## Room in the destination, one step at a time: O23, O51

What each kind of step answers is said as an equation; the two that flush then go on or stop as the room at `DI` says. -/

namespace Sys2Proof.Machine

section Room
variable {w : Nat}

/-! ### The encoder's steps -/

/-- R73: a byte that does not complete a group. -/
theorem encStep_byte {s : State w} (hlt : s.si < s.len) (hpos : s.pos ≠ 0#2) :
    encStep s =
      .next { s with si := s.si + 1, acc := s.acc ||| lane (readSrc s) s.pos, pos := s.pos - 1#2 } := by
  rw [encStep, if_pos hlt, encByte, if_pos hpos]

/-- R74: the third byte of a group. -/
theorem encStep_flush {s : State w} (hlt : s.si < s.len) (hpos : s.pos = 0#2) :
    encStep s = andThen (emitAll (flush4 (s.acc ||| lane (readSrc s) s.pos)) { s with si := s.si + 1 })
      fun t => .next { t with acc := 0#24, pos := 2#2 } := by
  rw [encStep, if_pos hlt, encByte, if_neg (not_not.2 hpos)]

/-- R75, R78: the closing step without a partial group. -/
theorem encStep_close {s : State w} (hend : s.si = s.len) (hpos : s.pos = 2#2) :
    encStep s = .next (takeDone s.di s) := by
  rw [encStep, if_neg (by bv_omega), if_pos hend, encClose, if_pos hpos]

/-- R76, R77: the unit of a partial group, by how many lanes of it are free. -/
def encTail (acc : Group) (pos : BitVec 2) : List Byte := if pos = 1#2 then tail1 acc else tail2 acc

theorem encTail_length (acc : Group) (pos : BitVec 2) : (encTail acc pos).length = 4 := by
  rw [encTail]
  split <;> rfl

/-- R76, R77, R78: the closing step of a partial group. -/
theorem encStep_tail {s : State w} (hend : s.si = s.len) (hpos : s.pos = 1#2 ∨ s.pos = 0#2) :
    encStep s = andThen (emitAll (encTail s.acc s.pos) s) fun t => .next (takeDone t.di t) := by
  rw [encStep, if_neg (by bv_omega), if_pos hend, encClose]
  rcases hpos with hpos | hpos <;> simp [hpos, encTail]

/-! ### The decoder's steps -/

/-- R85, R116: a character that fails its check. -/
theorem decStep_reject {s : State w} {c : FailCause} (hlt : s.si < s.len)
    (hc : checkChar (readSrc s) s.pos s.endMark = .error c) : decStep s = .next (takeFail c s) := by
  rw [decStep, if_pos hlt, decChar, hc]

/-- R89: an accepted character that does not complete a unit. -/
theorem decStep_char {s : State w} {v : SymVal} {e : BitVec 2} (hlt : s.si < s.len)
    (hc : checkChar (readSrc s) s.pos s.endMark = .ok (v, e)) (hpos : s.pos ≠ 3#2) :
    decStep s =
      .next { s with si := s.si + 1, endMark := e, acc := shiftIn s.acc v, pos := s.pos + 1#2 } := by
  rw [decStep, if_pos hlt, decChar, hc]
  exact if_pos hpos

/-- R90: the fourth character of a unit. -/
theorem decStep_flush {s : State w} {v : SymVal} {e : BitVec 2} (hlt : s.si < s.len)
    (hc : checkChar (readSrc s) s.pos s.endMark = .ok (v, e)) (hpos : s.pos = 3#2) :
    decStep s = andThen (emitAll (flushDec (shiftIn s.acc v) e) { s with si := s.si + 1, endMark := e })
      fun t => .next { t with acc := 0#24, pos := 0#2 } := by
  rw [decStep, if_pos hlt, decChar, hc]
  exact if_neg (not_not.2 hpos)

/-- R91: the closing step answers a next state, a success or a truncation. -/
theorem decStep_close {s : State w} (hend : s.si = s.len) :
    decStep s = .next (if s.pos ≠ 0#2 then takeFail .truncatedInput s else takeDone s.di s) := by
  rw [decStep, if_neg (by bv_omega), if_pos hend, decClose]
  split <;> rfl

/-- R85, R87, R88: what the checks accept, in the words of the claims. -/
theorem checkChar_eq_ok {s : State w} {v : SymVal} {e : BitVec 2} :
    checkChar (readSrc s) s.pos s.endMark = .ok (v, e) ↔ CharAccepted s v e := by
  rw [checkChar, CharAccepted, ← readSrc]
  cases classify (readSrc s) with
  | ws => simp
  | invalid => simp
  | symbol x => simp [eq_comm (a := e)]
  | pad =>
    by_cases h0 : s.endMark = 0#2
    · by_cases h2 : s.pos = 2#2
      · simp [padMark, h0, h2, eq_comm (a := v), eq_comm (a := e)]
      · by_cases h3 : s.pos = 3#2 <;> simp [padMark, h0, h2, h3, eq_comm (a := v), eq_comm (a := e)]
    · simp [padMark, h0, eq_comm (a := v), eq_comm (a := e)]

/-! ### A step that ends in a flush -/

/-- R32: the flush has room. -/
theorem flush_eq_next {bs : List Byte} {s : State w} (f : State w → State w)
    (hcap : s.di.toNat + bs.length ≤ s.bufs.dcap) (hw : s.di.toNat + bs.length < 2 ^ w) :
    ∃ t, andThen (emitAll bs s) (fun u => .next (f u)) = .next t :=
  ⟨_, by rw [emitAll_next bs s hcap hw, andThen_next]⟩

/-- R38: the flush has none. -/
theorem flush_eq_fault {bs : List Byte} {s : State w} (f : State w → Result w)
    (hcap : s.bufs.dcap < s.di.toNat + bs.length) (hw : s.di.toNat + bs.length < 2 ^ w) (hne : bs ≠ []) :
    andThen (emitAll bs s) f = .fault .dstOverrun := by
  rw [emitAll_fault bs s hcap hw hne, andThen_fault]

/-- R80, R108: where the encoder's next unit ends. -/
theorem Invariant.enc_room {s : State w} (h : Invariant s) (hp : s.phase = .run) (hop : s.op = opB64Enc)
    (hmore : s.si < s.len ∨ s.pos ≠ 2#2) : s.di.toNat + 4 ≤ estimate s.op s.len.toNat ∧ s.di.toNat + 4 < 2 ^ w := by
  obtain ⟨-, ⟨-, hest, -⟩, hle, henc, -⟩ := runInv_iff.1 (h.runInv hp)
  have hroom : s.di.toNat + 4 ≤ estimate s.op s.len.toNat := hop ▸ (henc hop).room hle hmore
  exact ⟨hroom, (hroom.trans_lt hest).trans_le two_pow_pred_le⟩

/-- R99, R108: where the decoder's next flush ends. -/
theorem Invariant.dec_room {s : State w} (h : Invariant s) (hp : s.phase = .run) (hop : s.op = opB64Dec)
    (hlt : s.si < s.len) (hpos : s.pos = 3#2) (a : Group) (e : BitVec 2) :
    s.di.toNat + (flushDec a e).length ≤ estimate s.op s.len.toNat ∧ s.di.toNat + (flushDec a e).length < 2 ^ w := by
  obtain ⟨-, ⟨-, hest, -⟩, -, -, hdec⟩ := runInv_iff.1 (h.runInv hp)
  have hunit : s.di.toNat + 3 ≤ estimate s.op s.len.toNat := hop ▸ (hdec hop).room hlt hpos
  have hroom := (Nat.add_le_add_left (flushDec_length_le a e).1 _).trans hunit
  exact ⟨hroom, (hroom.trans_lt hest).trans_le two_pow_pred_le⟩

/-- R16, R75: at its closing step the encoder has no partial group, or one of the two there are tails for. -/
theorem Invariant.enc_pos {s : State w} (h : Invariant s) (hp : s.phase = .run) (hop : s.op = opB64Enc) :
    s.pos = 2#2 ∨ s.pos = 1#2 ∨ s.pos = 0#2 := by
  obtain ⟨-, -, -, henc, -⟩ := runInv_iff.1 (h.runInv hp)
  have := (henc hop).pos_ne_three
  bv_omega

/-- R134: with the capacity duty met, the encoder's step answers a next state. -/
theorem Invariant.encStep_next {s : State w} (h : Invariant s) (hp : s.phase = .run) (hop : s.op = opB64Enc)
    (hcap : estimate s.op s.len.toNat ≤ s.bufs.dcap) : ∃ t, encStep s = .next t := by
  obtain ⟨-, -, hle, -⟩ := runInv_iff.1 (h.runInv hp)
  obtain hlt | hend : s.si < s.len ∨ s.si = s.len := by bv_omega
  · by_cases hpos : s.pos = 0#2
    · obtain ⟨hroom, hw⟩ := h.enc_room hp hop (.inl hlt)
      rw [encStep_flush hlt hpos]
      exact flush_eq_next _ (hroom.trans hcap) hw
    · exact ⟨_, encStep_byte hlt hpos⟩
  · obtain hpos | hpos := h.enc_pos hp hop
    · exact ⟨_, encStep_close hend hpos⟩
    · obtain ⟨hroom, hw⟩ := h.enc_room hp hop (.inr (by bv_omega))
      rw [encStep_tail hend hpos]
      exact flush_eq_next _ (by rw [encTail_length]; omega) (by rwa [encTail_length])

/-- R134, R99: with the capacity duty met, the decoder's step answers a next state. -/
theorem Invariant.decStep_next {s : State w} (h : Invariant s) (hp : s.phase = .run) (hop : s.op = opB64Dec)
    (hcap : estimate s.op s.len.toNat ≤ s.bufs.dcap) : ∃ t, decStep s = .next t := by
  obtain ⟨-, -, hle, -⟩ := runInv_iff.1 (h.runInv hp)
  obtain hlt | hend : s.si < s.len ∨ s.si = s.len := by bv_omega
  · cases hc : checkChar (readSrc s) s.pos s.endMark with
    | error c => exact ⟨_, decStep_reject hlt hc⟩
    | ok ve =>
      obtain ⟨v, e⟩ := ve
      by_cases hpos : s.pos = 3#2
      · obtain ⟨hroom, hw⟩ := h.dec_room hp hop hlt hpos (shiftIn s.acc v) e
        rw [decStep_flush hlt hc hpos]
        exact flush_eq_next _ (hroom.trans hcap) hw
      · exact ⟨_, decStep_char hlt hc hpos⟩
  · exact ⟨_, decStep_close hend⟩

end Room

/-- Settles O23: each of the three steps ends in a flush, whose last element lies beyond `DCAP` but within what `DI`
counts. -/
theorem flushBeyondCapacityFaults : Obligations.FlushBeyondCapacityFaults := by
  intro w s hs
  refine ⟨?_, ?_, ?_⟩
  · rintro ⟨hp, hop, hi⟩ hlt hpos hcap
    rw [stepAt_engine hi, engineStep_of_enc hp hop, encStep_flush hlt hpos]
    exact flush_eq_fault _ hcap (hs.enc_room hp hop (.inl hlt)).2 (by simp [flush4])
  · rintro ⟨hp, hop, hi⟩ hend hpos hcap
    have htail : (encTail s.acc s.pos).length = 4 := encTail_length _ _
    rw [stepAt_engine hi, engineStep_of_enc hp hop, encStep_tail hend ((hs.enc_pos hp hop).resolve_left hpos)]
    exact flush_eq_fault _ (by rwa [htail]) (by rw [htail]; exact (hs.enc_room hp hop (.inr hpos)).2)
      (List.ne_nil_of_length_pos (by omega))
  · rintro v e ⟨hp, hop, hi⟩ hlt hpos hacc hcap
    rw [stepAt_engine hi, engineStep_of_dec hp hop, decStep_flush hlt (checkChar_eq_ok.2 hacc) hpos]
    exact flush_eq_fault _ (by rwa [flushDec_length]) (hs.dec_room hp hop hlt hpos _ _).2 (flushDec_ne_nil _ _)

/-- Settles O51: the operation in progress is one of the two transforms, and neither lacks the room for a flush. -/
theorem capacityMetNeverFaults : Obligations.CapacityMetNeverFaults := by
  intro w s hs hp hi hcap
  rw [stepAt_engine hi]
  rcases hs.op_of_run hp with hop | hop
  · rw [engineStep_of_enc hp hop]
    exact hs.encStep_next hp hop hcap
  · rw [engineStep_of_dec hp hop]
    exact hs.decStep_next hp hop hcap

end Sys2Proof.Machine

/-! ## A transform from its start to its end: O25, O26, O39, O40

What an operation has left alone since its start is one predicate for both transforms (`RunsFrom`). Each transform adds
where it stands (`EncReached`, `DecReached`); every step keeps that, so the state in which the operation ends has it,
and an operation that ends in no such state has run out of room. -/

namespace Sys2Proof.Machine

section Operation
variable {w : Nat}

/-! ### What an operation has left alone since its start -/

/-- The same command with its attachments, the host's actions and the registers it may write. -/
theorem SameCommand.eq_update {s t : State w} (h : SameCommand s t) :
    t = { s with
      acc := t.acc, pos := t.pos, endMark := t.endMark, si := t.si, di := t.di, phase := t.phase, fail := t.fail,
      result := t.result, mem := t.mem, fresh := t.fresh } := by
  obtain ⟨hop, hlen, hbufs, hinbox⟩ := h
  cases t
  simp_all

/-- `s` stands in the operation that began in `s₀` and has not failed: it has drawn no free value, and of memory it has
written `DST[0..DI)` only, within `DCAP`. -/
structure RunsFrom (s₀ s : State w) : Prop where
  command : SameCommand s₀ s
  fresh : s.fresh = s₀.fresh
  si_le : s.si.toNat ≤ s.len.toNat
  di_le : s.di.toNat ≤ s.bufs.dcap
  outside : ∀ a, OutsideDst s₀ s.di.toNat a → s.mem.read a = s₀.mem.read a

/-- R23: an operation begins with both indices at 0. -/
theorem RunsFrom.start (op : BitVec 2) (n : Nat) (s : State w) :
    RunsFrom (startTransition op n s) (startTransition op n s) :=
  ⟨⟨rfl, rfl, rfl, rfl⟩, rfl, by simp, by simp, fun _ _ => rfl⟩

/-- The source index and the registers that hold a unit in progress. -/
theorem RunsFrom.setRegs {s₀ s : State w} (h : RunsFrom s₀ s) {si : Word w} (hle : si.toNat ≤ s.len.toNat) (acc : Group)
    (pos endMark : BitVec 2) : RunsFrom s₀ { s with si := si, acc := acc, pos := pos, endMark := endMark } := by
  obtain ⟨⟨hop, hlen, hbufs, hinbox⟩, hfresh, -, hdi, hout⟩ := h
  exact ⟨⟨hop, hlen, hbufs, hinbox⟩, hfresh, hle, hdi, hout⟩

/-- The outcome registers. -/
theorem RunsFrom.takeDone {s₀ s : State w} (h : RunsFrom s₀ s) (n : Word w) : RunsFrom s₀ (takeDone n s) := by
  obtain ⟨⟨hop, hlen, hbufs, hinbox⟩, hfresh, hsi, hdi, hout⟩ := h
  exact ⟨⟨hop, hlen, hbufs, hinbox⟩, hfresh, hsi, hdi, hout⟩

/-- What a flush has written and where, where `DI` has room to count. -/
theorem emitAll_eq_next {bs : List Byte} {s u : State w} (h : emitAll bs s = .next u)
    (hroom : s.di.toNat + bs.length < 2 ^ (w - 1)) (hdi : s.di.toNat ≤ s.bufs.dcap) :
    u.mem = s.mem.writeBytes (s.bufs.dst + s.di.toNat) bs ∧ u.di.toNat = s.di.toNat + bs.length ∧
      u.di.toNat ≤ s.bufs.dcap := by
  have hw : s.di.toNat + bs.length < 2 ^ w := lt_of_lt_of_le hroom two_pow_pred_le
  have hcap : s.di.toNat + bs.length ≤ s.bufs.dcap := by
    by_contra hcap
    rcases eq_or_ne bs [] with rfl | hne
    · exact hcap hdi
    · rw [emitAll_fault bs s (Nat.lt_of_not_le hcap) hw hne] at h
      cases h
  have hu := toNat_di_emitAll h hroom
  rw [emitAll_next bs s hcap hw, Host.Outcome.next.injEq] at h
  exact ⟨h ▸ rfl, hu, hu.trans_le hcap⟩

/-- R32: a flush goes on writing where the last one ended. -/
theorem RunsFrom.emitAll {s₀ s u : State w} {bs : List Byte} (h : RunsFrom s₀ s) (hu : emitAll bs s = .next u)
    (hroom : s.di.toNat + bs.length < 2 ^ (w - 1)) : RunsFrom s₀ u := by
  obtain ⟨hcmd, hfresh, hsi, hdi, hout⟩ := h
  obtain ⟨-, hlen, -, -, -, hsi', -, -, -, hbufs, hfresh', -⟩ := emitAll_regs hu
  obtain ⟨hmem, hdi', hcap⟩ := emitAll_eq_next hu hroom hdi
  refine ⟨hcmd.trans (sameCommand_of_emitAll hu), hfresh'.trans hfresh, by rwa [hsi', hlen], by rwa [hbufs],
    fun a ha => ?_⟩
  have hdst : s.bufs.dst = s₀.bufs.dst := by rw [hcmd.bufs]
  rw [OutsideDst, hdi'] at ha
  rw [hmem, Memory.read_writeBytes_outside bs s.mem (by omega), hout a (by rw [OutsideDst]; omega)]

/-- R43: the source reads as it did at the start, since it shares no element with the destination. -/
theorem RunsFrom.readSrc {s₀ s : State w} (h : RunsFrom s₀ s) (hadm : Admissible s₀) (hlt : s.si < s.len) :
    readSrc s = (sourceOf s₀ s₀.len.toNat).getD s.si.toNat 0#8 := by
  obtain ⟨⟨-, hlen, hbufs, -⟩, -, -, hdi, hout⟩ := h
  obtain ⟨-, -, hdisj⟩ := hadm
  have hk : s.si.toNat < s₀.len.toNat := hlen ▸ hlt
  have hlength : s.si.toNat < (sourceOf s₀ s₀.len.toNat).length := by simpa [sourceOf] using hk
  have hapart : OutsideDst s₀ s.di.toNat (s₀.bufs.src + s.si.toNat) := by
    rw [Buffers.overlap, decide_eq_false_iff_not] at hdisj
    rw [hbufs] at hdi
    rw [OutsideDst]
    omega
  rw [List.getD_eq_getElem _ _ hlength, Machine.readSrc, hbufs, hout _ hapart]
  exact (Memory.getElem_readBytes s₀.mem hlength).symm

/-- R22, R78, R92: the operation that began in `s₀` has ended as a success. -/
structure Succeeded (s₀ s : State w) : Prop where
  run : RunsFrom s₀ s
  phase : s.phase = .done
  fail : s.fail = false
  result : s.result = s.di

theorem RunsFrom.succeeded {s₀ s : State w} (h : RunsFrom s₀ s) : Succeeded s₀ (Machine.takeDone s.di s) :=
  ⟨h.takeDone _, rfl, rfl, rfl⟩

/-- R108, R43: what the start of a transform has made sure of. -/
theorem admissible_startTransition {op : BitVec 2} {n : Nat} {s : State w} (hT : isTransform op = true)
    (hc : CanStart op n s) : Admissible (startTransition op n s) ∧ (startTransition op n s).len.toNat = n := by
  obtain ⟨-, hn, hest, hdisj⟩ := hc
  have hlen := toNat_ofNat_of_admitted hn
  refine ⟨?_, hlen⟩
  rw [Admissible, startTransition_len, hlen]
  exact ⟨hn, hest, hdisj hT⟩

/-- R93: the failure exit leaves everything outside the destination as it was at the start. -/
theorem RunsFrom.takeFail_read_outside {s₀ s : State w} (h : RunsFrom s₀ s) (c : FailCause) {a : Nat}
    (ha : OutsideDst s₀ s₀.bufs.dcap a) : (takeFail c s).mem.read a = s₀.mem.read a := by
  have hbufs := h.command.bufs
  have hdi := h.di_le
  obtain ⟨-, -, hexit, -⟩ := failedFrom_takeFail c s
  rw [hexit a (by rwa [OutsideDst, hbufs]), h.outside a]
  rw [hbufs] at hdi
  rw [OutsideDst] at ha ⊢
  omega

/-- R126: an operation that is never stuck and never refused, and that ends in no state, has run out of room. -/
theorem runToDone_eq_dstOverrun {f : State w → Result w} {P : State w → Prop}
    (hkeep : ∀ s t, s.phase = .run → P s → f s = .next t → P t)
    (henabled : ∀ s, s.phase = .run → P s → f s ≠ .fault .noEnabledStep) (hrefuse : ∀ s r, f s ≠ .refused r) {k : Nat}
    {s : State w} (hs : P s) (hnext : ∀ t, runToDone f k s ≠ .next t) : runToDone f k s = .fault .dstOverrun := by
  cases h : runToDone f k s with
  | next t => exact absurd h (hnext t)
  | refused r => exact absurd h (runToDone_ne_refused hrefuse k s r)
  | fault r =>
    cases r with
    | dstOverrun => rfl
    | noEnabledStep => exact absurd h (runToDone_ne_fault hkeep henabled hs)

/-! ### The encoder -/

/-- Where a state of the encoder's operation that began in `s₀` stands. -/
inductive EncReached (s₀ s : State w) : Prop where
  | running (run : RunsFrom s₀ s) (phase : s.phase = .run) (regs : EncRegs s)
  | ended (success : Succeeded s₀ s) (endMark : s.endMark = 0#2) (di : s.di.toNat = encodedLength s₀.len.toNat)

theorem EncReached.of_run {s₀ s : State w} (h : EncReached s₀ s) (hp : s.phase = .run) :
    RunsFrom s₀ s ∧ EncRegs s := by
  cases h with
  | running run _ regs => exact ⟨run, regs⟩
  | ended success => cases hp.symm.trans success.phase

theorem EncReached.of_done {s₀ s : State w} (h : EncReached s₀ s) (hp : s.phase = .done) :
    Succeeded s₀ s ∧ s.endMark = 0#2 ∧ s.di.toNat = encodedLength s₀.len.toNat := by
  cases h with
  | running _ phase _ => cases hp.symm.trans phase
  | ended success endMark di => exact ⟨success, endMark, di⟩

/-- R73 to R80: at the end of the source only a partial group's unit is still to write. -/
theorem EncRegs.di_at_end {s : State w} (h : EncRegs s) (hend : s.si = s.len) :
    encodedLength s.len.toNat = s.di.toNat + if s.pos = 2#2 then 0 else 4 := by
  obtain ⟨-, hsum, hdi, -⟩ := h
  rw [hend] at hsum hdi
  unfold encodedLength
  split <;> bv_omega

/-- R76 to R78: the closing step of a partial group. -/
theorem EncReached.tail {s₀ s u : State w} {bs : List Byte} (run : RunsFrom s₀ s) (regs : EncRegs s)
    (hest : encodedLength s₀.len.toNat < 2 ^ (w - 1)) (hend : s.si = s.len) (hpos : s.pos ≠ 2#2) (hbs : bs.length = 4)
    (hu : emitAll bs s = .next u) : EncReached s₀ (takeDone u.di u) := by
  have hdi := regs.di_at_end hend
  rw [if_neg hpos, run.command.len] at hdi
  have hroom : s.di.toNat + bs.length < 2 ^ (w - 1) := by omega
  obtain ⟨-, -, -, -, hmark, -⟩ := emitAll_regs hu
  refine .ended (run.emitAll hu hroom).succeeded (hmark.trans regs.1) ?_
  rw [takeDone_di, toNat_di_emitAll hu hroom, hbs, hdi]

/-- R72: each step of the encoder. -/
theorem encStep_reached {s₀ s t : State w} (hadm : Admissible s₀) (hop : s₀.op = opB64Enc) (hp : s.phase = .run)
    (hs : EncReached s₀ s) (h : encStep s = .next t) : EncReached s₀ t := by
  obtain ⟨run, regs⟩ := hs.of_run hp
  obtain ⟨-, hest, -⟩ := hadm
  rw [hop, opB64Enc_eq, estimate_enc] at hest
  obtain ⟨hlt, hpos, rfl⟩ | ⟨hlt, hpos, u, hu, rfl⟩ | ⟨hend, hpos, rfl⟩ | ⟨hend, hpos, u, hu, rfl⟩ |
    ⟨hend, hpos, u, hu, rfl⟩ := encStep_eq_next h
  case inl =>
    obtain ⟨hsi, hle⟩ := toNat_si_succ hlt
    exact .running (run.setRegs (by rwa [hsi]) _ _ _) hp (regs.byte hlt hpos)
  case inr.inl =>
    obtain ⟨hsi, hle⟩ := toNat_si_succ hlt
    obtain ⟨-, -, -, -, hmark, hsiu, hphase, -⟩ := emitAll_regs hu
    have hunit := regs.room run.si_le (.inl hlt)
    rw [run.command.len] at hunit
    have hroom : s.di.toNat + 4 < 2 ^ (w - 1) := by omega
    have runu : RunsFrom s₀ u := (run.setRegs (si := s.si + 1) (by rwa [hsi]) s.acc s.pos s.endMark).emitAll hu hroom
    exact .running (runu.setRegs runu.si_le _ _ _) (hphase.trans hp)
      (regs.flush hlt hpos hmark hsiu (toNat_di_emitAll hu hroom))
  case inr.inr.inl =>
    have hdi := regs.di_at_end hend
    rw [if_pos hpos, run.command.len] at hdi
    exact .ended run.succeeded regs.1 hdi.symm
  all_goals exact .tail run regs hest hend (by simp [hpos]) rfl hu

/-- R23: the start of the encoder's operation. -/
theorem encReached_start (n : Nat) (s : State w) :
    EncReached (startTransition opB64Enc n s) (startTransition opB64Enc n s) :=
  .running (RunsFrom.start _ n s) rfl ⟨rfl, by simp, by simp, by simp⟩

/-- R70: what `B64ENC` can answer with a next state. -/
theorem execAt_enc_eq_next {n : Nat} {s t : State w} (h : execAt (.b64enc n) s = .next t) :
    Succeeded (startTransition opB64Enc n s) t ∧ t.endMark = 0#2 ∧ t.di.toNat = encodedLength n := by
  obtain ⟨hc, ht⟩ := andThen_beginOp_eq_next h
  obtain ⟨hadm, hlen⟩ := admissible_startTransition rfl hc
  have hreached := runToDone_induct (fun _ _ => encStep_reached hadm rfl) (encReached_start n s) ht
  have hend := hreached.of_done (execAt_ends h).2
  rwa [hlen] at hend

/-- R126: a `B64ENC` that may start and answers no next state has run out of room. -/
theorem execAt_enc_eq_dstOverrun {n : Nat} {s : State w} (hc : CanStart opB64Enc n s)
    (hnext : ∀ t, execAt (.b64enc n) s ≠ .next t) : execAt (.b64enc n) s = .fault .dstOverrun := by
  have hrun : execAt (.b64enc n) s = runToDone encStep (n + 1) (startTransition opB64Enc n s) := andThen_beginOp hc _
  obtain ⟨hadm, -⟩ := admissible_startTransition rfl hc
  rw [hrun] at hnext ⊢
  refine runToDone_eq_dstOverrun (fun _ _ => encStep_reached hadm rfl) (fun u hp hu => ?_) encStep_ne_refused
    (encReached_start n s) hnext
  obtain ⟨run, regs⟩ := hu.of_run hp
  exact encStep_enabled run.si_le regs.pos_ne_three

/-! ### The text that the decoder reads -/

/-- R87, R94: what the end marker is when the first `i` characters of a text have been accepted. -/
def markBefore (t : List Byte) (i : Nat) : BitVec 2 :=
  match firstPad t with
  | none => 0#2
  | some p => if p < i then (if p % 4 = 2 then 1#2 else 2#2) else 0#2

theorem markBefore_of_none {t : List Byte} (h : firstPad t = none) (i : Nat) : markBefore t i = 0#2 := by
  simp [markBefore, h]

theorem markBefore_of_some {t : List Byte} {p : Nat} (h : firstPad t = some p) (i : Nat) :
    markBefore t i = if p < i then (if p % 4 = 2 then 1#2 else 2#2) else 0#2 := by
  simp [markBefore, h]

@[simp] theorem markBefore_zero (t : List Byte) : markBefore t 0 = 0#2 := by
  cases h : firstPad t with
  | none => exact markBefore_of_none h 0
  | some p => simp [markBefore_of_some h]

/-- R88: only a `=` changes the end marker. -/
theorem markBefore_succ_of_ne_pad {t : List Byte} {i : Nat} (h : classify (t.getD i 0#8) ≠ .pad) :
    markBefore t (i + 1) = markBefore t i := by
  cases hf : firstPad t with
  | none => rw [markBefore_of_none hf, markBefore_of_none hf]
  | some p =>
    have hne : p ≠ i := by
      rintro rfl
      obtain ⟨-, hpad, -⟩ := firstPad_some hf
      exact h hpad
    have hiff : p < i + 1 ↔ p < i := by omega
    simp only [markBefore_of_some hf, hiff]

/-- Where a `=` stands, the first one stands there or before. -/
theorem firstPad_le_of_pad {t : List Byte} {i : Nat} (hi : i < t.length) (h : classify (t.getD i 0#8) = .pad) :
    ∃ p, p ≤ i ∧ firstPad t = some p := by
  cases hf : firstPad t with
  | none => exact absurd h (firstPad_none hf hi)
  | some p =>
    obtain ⟨-, -, hbefore⟩ := firstPad_some hf
    exact ⟨p, not_lt.1 fun hlt => hbefore i hlt h, rfl⟩

/-- R87: the pad rule finds a `=` misplaced exactly where it is the text's offender, and marks the end otherwise. -/
theorem padMark_markBefore {t : List Byte} {i : Nat} {pos : BitVec 2} (hi : i < t.length) (hpos : pos.toNat = i % 4)
    (h : classify (t.getD i 0#8) = .pad) :
    padMark pos (markBefore t i) = if offends t i then none else some (markBefore t (i + 1)) := by
  obtain ⟨p, hle, hf⟩ := firstPad_le_of_pad hi h
  simp only [markBefore_of_some hf, offends, h, hf]
  rcases hle.eq_or_lt with rfl | hlt
  · have h2 : pos = 2#2 ↔ p % 4 = 2 := by rw [← hpos]; bv_omega
    have h3 : pos = 3#2 ↔ p % 4 = 3 := by rw [← hpos]; bv_omega
    obtain hlow | htwo | hthree : p % 4 < 2 ∨ p % 4 = 2 ∨ p % 4 = 3 := by omega
    · simp [padMark, h2, h3, hlow, show p % 4 ≠ 2 by omega, show p % 4 ≠ 3 by omega]
    · simp [padMark, h2, htwo]
    · simp [padMark, h2, h3, hthree]
  · have hmark : (if p % 4 = 2 then 1#2 else 2#2) ≠ 0#2 := by split <;> decide
    simp [padMark, hlt, hlt.ne, hlt.trans (Nat.lt_succ_self i), hmark]

/-- R85, R94: the decoder's checks reject exactly the offenders, and leave the marker that the text before the next
character says. -/
theorem checkChar_markBefore {t : List Byte} {i : Nat} {pos : BitVec 2} (hi : i < t.length)
    (hpos : pos.toNat = i % 4) :
    (∀ c, checkChar (t.getD i 0#8) pos (markBefore t i) = .error c → offends t i = true) ∧
      ∀ v e, checkChar (t.getD i 0#8) pos (markBefore t i) = .ok (v, e) →
        offends t i = false ∧ e = markBefore t (i + 1) := by
  unfold checkChar
  cases hcls : classify (t.getD i 0#8) with
  | ws | invalid => exact ⟨fun _ _ => by rw [offends, hcls], fun _ _ h => nomatch h⟩
  | symbol x =>
    have hkeep : markBefore t (i + 1) = markBefore t i := markBefore_succ_of_ne_pad (by rw [hcls]; simp)
    have hclean : offends t i = false := by rw [offends, hcls]
    simp [hkeep, hclean]
  | pad =>
    rw [padMark_markBefore hi hpos hcls]
    cases offends t i <;> simp

/-- R90, R94: the flush of a unit writes as many bytes as the text says the unit yields. -/
theorem flushDec_markBefore_length (t : List Byte) {i : Nat} (h : i % 4 = 3) (a : Group) :
    (flushDec a (markBefore t (i + 1))).length = unitBytes t (i / 4) := by
  rw [flushDec_length, unitBytes]
  cases hf : firstPad t with
  | none => simp [markBefore_of_none hf]
  | some p =>
    have hiff : p < i + 1 ↔ ¬ i / 4 < p / 4 := by omega
    simp only [markBefore_of_some hf, hiff, padBytes]
    by_cases hunit : i / 4 < p / 4 <;> by_cases htwo : p % 4 = 2 <;> simp [hunit, htwo]

@[simp] theorem bytesBefore_zero (t : List Byte) : bytesBefore t 0 = 0 := rfl

/-- The last character of a unit completes it. -/
theorem bytesBefore_succ_of_last (t : List Byte) {i : Nat} (h : i % 4 = 3) :
    bytesBefore t (i + 1) = bytesBefore t i + unitBytes t (i / 4) := by
  have hunit : (i + 1) / 4 = i / 4 + 1 := by omega
  simp [bytesBefore, hunit, List.range_succ]

theorem bytesBefore_succ_of_not_last (t : List Byte) {i : Nat} (h : i % 4 ≠ 3) :
    bytesBefore t (i + 1) = bytesBefore t i := by
  have hunit : (i + 1) / 4 = i / 4 := by omega
  rw [bytesBefore, bytesBefore, hunit]

/-- R94: an accepted text yields the bytes of all its units. -/
theorem length_of_decText {t y : List Byte} (h : decText t = some y) : y.length = bytesBefore t t.length := by
  obtain ⟨-, -, rfl⟩ := decText_eq_some.1 h
  rw [List.length_flatMap, bytesBefore]
  congr 1
  refine List.map_congr_left fun u _ => ?_
  rw [List.length_take]
  exact min_eq_left (unitBytes_range t u).2

/-- R94: a text of whole units without an offender fails nowhere. -/
theorem failCause_eq_none {t : List Byte} (hclean : ∀ j < t.length, offends t j = false) (hunits : t.length % 4 = 0) :
    failCause t = none := by
  rw [failCause, firstOffender_none.2 hclean]
  exact if_pos hunits

/-- R117: a text fails at one index only, its first offender or, where its units are not whole, its end. -/
theorem failCause_index {t : List Byte} {c : FailCause} {i j : Nat} (h : failCause t = some (c, i))
    (hclean : ∀ k < j, offends t k = false)
    (hfound : j < t.length ∧ offends t j = true ∨ j = t.length ∧ t.length % 4 ≠ 0) : j = i := by
  obtain hfirst | ⟨hnone, rfl, -⟩ := failCause_eq_some h
  · obtain ⟨hi, hoff, hbefore⟩ := firstOffender_some.1 hfirst
    have hle : j ≤ i := not_lt.1 fun hlt => by simp [hclean i hlt] at hoff
    obtain ⟨-, hoff'⟩ | ⟨hend, -⟩ := hfound
    · exact hle.eq_of_not_lt fun hlt => by simp [hbefore j hlt] at hoff'
    · omega
  · obtain ⟨hj, hoff⟩ | ⟨hend, -⟩ := hfound
    · simp [firstOffender_none.1 hnone j hj] at hoff
    · exact hend

/-! ### The decoder -/

/-- R94: `s` has accepted the first `SI` characters of the text `t`. -/
structure Scanned (t : List Byte) (s : State w) : Prop where
  clean : ∀ j < s.si.toNat, offends t j = false
  mark : s.endMark = markBefore t s.si.toNat
  di : s.di.toNat = bytesBefore t s.si.toNat

/-- One more character accepted. -/
theorem Scanned.step {t : List Byte} {s u : State w} (h : Scanned t s) (hclean : offends t s.si.toNat = false)
    (hsi : u.si.toNat = s.si.toNat + 1) (hmark : u.endMark = markBefore t (s.si.toNat + 1))
    (hdi : u.di.toNat = bytesBefore t (s.si.toNat + 1)) : Scanned t u := by
  refine ⟨fun j hj => ?_, hsi ▸ hmark, hsi ▸ hdi⟩
  obtain hlt | rfl : j < s.si.toNat ∨ j = s.si.toNat := by omega
  · exact h.clean j hlt
  · exact hclean

/-- R93, R116, R117: the operation that began in `s₀` with the text `t` has ended by the failure exit, taken from `r`
at the first offender or at the end of a truncated text. -/
structure FailedAt (s₀ : State w) (t : List Byte) (r s : State w) : Prop where
  run : RunsFrom s₀ r
  scanned : Scanned t r
  exit : ∃ c, s = takeFail c r
  found : r.si.toNat < t.length ∧ offends t r.si.toNat = true ∨ r.si.toNat = t.length ∧ t.length % 4 ≠ 0

/-- Where a state of the decoder's operation that began in `s₀` with the text `t` stands. -/
inductive DecReached (s₀ : State w) (t : List Byte) (s : State w) : Prop where
  | running (run : RunsFrom s₀ s) (phase : s.phase = .run) (regs : DecRegs s) (scanned : Scanned t s)
  | succeeded (success : Succeeded s₀ s) (scanned : Scanned t s) (si : s.si.toNat = t.length) (units : t.length % 4 = 0)
  | failed (r : State w) (failure : FailedAt s₀ t r s)

theorem FailedAt.phase {s₀ r s : State w} {t : List Byte} (h : FailedAt s₀ t r s) : s.phase = .done := by
  obtain ⟨c, rfl⟩ := h.exit
  rfl

theorem DecReached.of_run {s₀ s : State w} {t : List Byte} (h : DecReached s₀ t s) (hp : s.phase = .run) :
    RunsFrom s₀ s ∧ DecRegs s ∧ Scanned t s := by
  cases h with
  | running run _ regs scanned => exact ⟨run, regs, scanned⟩
  | succeeded success => cases hp.symm.trans success.phase
  | failed r failure => cases hp.symm.trans failure.phase

/-- R99, R108: a flush counts `DI` within the bound. -/
theorem DecRegs.flush_lt {s : State w} (h : DecRegs s) (hest : decodedLength s.len.toNat < 2 ^ (w - 1))
    (hlt : s.si < s.len) (hpos : s.pos = 3#2) (a : Group) (e : BitVec 2) :
    s.di.toNat + (flushDec a e).length < 2 ^ (w - 1) :=
  calc s.di.toNat + (flushDec a e).length ≤ s.di.toNat + 3 := Nat.add_le_add_left (flushDec_length_le a e).1 _
    _ ≤ decodedLength s.len.toNat := h.room hlt hpos
    _ < 2 ^ (w - 1) := hest

theorem DecReached.of_done {s₀ s : State w} {t : List Byte} (h : DecReached s₀ t s) (hp : s.phase = .done) :
    (Succeeded s₀ s ∧ Scanned t s ∧ s.si.toNat = t.length ∧ t.length % 4 = 0) ∨ ∃ r, FailedAt s₀ t r s := by
  cases h with
  | running _ phase _ _ => cases hp.symm.trans phase
  | succeeded success scanned si units => exact .inl ⟨success, scanned, si, units⟩
  | failed r failure => exact .inr ⟨r, failure⟩

/-- R84: each step of the decoder. -/
theorem decStep_reached {s₀ s u : State w} {t : List Byte} (hadm : Admissible s₀) (hop : s₀.op = opB64Dec)
    (ht : t = sourceOf s₀ s₀.len.toNat) (hp : s.phase = .run) (hs : DecReached s₀ t s) (h : decStep s = .next u) :
    DecReached s₀ t u := by
  obtain ⟨run, regs, scanned⟩ := hs.of_run hp
  have ⟨_, hpos4, _⟩ := regs
  have ⟨_, hest, _⟩ := hadm
  rw [hop, opB64Dec_eq, estimate_dec] at hest
  have hlength : t.length = s.len.toNat := by simp [ht, sourceOf, run.command.len]
  have hcheck (hlt : s.si < s.len) := checkChar_markBefore (t := t) (i := s.si.toNat) (hlength ▸ hlt) hpos4
  have hread (hlt : s.si < s.len) : readSrc s = t.getD s.si.toNat 0#8 := by rw [run.readSrc hadm hlt, ht]
  obtain ⟨hlt, c, hc, rfl⟩ | ⟨hlt, hpos, v, e, hc, rfl⟩ | ⟨hlt, hpos, v, e, r, hc, hr, rfl⟩ | ⟨hend, hpos, rfl⟩ |
    ⟨hend, hpos, rfl⟩ := decStep_eq_next h
  case inl =>
    rw [hread hlt, scanned.mark] at hc
    exact .failed s ⟨run, scanned, ⟨c, rfl⟩, .inl ⟨hlength ▸ hlt, (hcheck hlt).1 c hc⟩⟩
  case inr.inl =>
    have hregs := regs.char hlt hpos hc
    rw [hread hlt, scanned.mark] at hc
    obtain ⟨hclean, rfl⟩ := (hcheck hlt).2 v e hc
    obtain ⟨hsi, hle⟩ := toNat_si_succ hlt
    have hlast : s.si.toNat % 4 ≠ 3 := by bv_omega
    have hdi := scanned.di.trans (bytesBefore_succ_of_not_last t hlast).symm
    exact .running (run.setRegs (by rwa [hsi]) _ _ _) hp hregs (scanned.step hclean hsi rfl hdi)
  case inr.inr.inl =>
    obtain ⟨hsi, hle⟩ := toNat_si_succ hlt
    obtain ⟨-, -, -, -, hmark, hsir, hphase, -⟩ := emitAll_regs hr
    have hroom := regs.flush_lt (run.command.len ▸ hest) hlt hpos (shiftIn s.acc v) e
    have hdi := toNat_di_emitAll hr hroom
    have hregs := regs.flush hlt hpos hc hmark hsir hdi
    have runr : RunsFrom s₀ r := (run.setRegs (si := s.si + 1) (by rwa [hsi]) s.acc s.pos e).emitAll hr hroom
    rw [hread hlt, scanned.mark] at hc
    obtain ⟨hclean, rfl⟩ := (hcheck hlt).2 v e hc
    have hlast : s.si.toNat % 4 = 3 := by bv_omega
    rw [flushDec_markBefore_length t hlast, scanned.di, ← bytesBefore_succ_of_last t hlast] at hdi
    exact .running (runr.setRegs runr.si_le _ _ _) (hphase.trans hp) hregs
      (scanned.step hclean (hsir ▸ hsi) hmark hdi)
  case inr.inr.inr.inl =>
    have hpart : s.len.toNat % 4 ≠ 0 := by bv_omega
    exact .failed s ⟨run, scanned, ⟨_, rfl⟩, .inr ⟨by rw [hend, hlength], hlength ▸ hpart⟩⟩
  case inr.inr.inr.inr =>
    have hunits : s.len.toNat % 4 = 0 := by bv_omega
    exact .succeeded run.succeeded ⟨scanned.clean, scanned.mark, scanned.di⟩ (by rw [takeDone_si, hend, hlength])
      (hlength ▸ hunits)

/-- R23: the start of the decoder's operation. -/
theorem decReached_start (n : Nat) (s : State w) (t : List Byte) :
    DecReached (startTransition opB64Dec n s) t (startTransition opB64Dec n s) :=
  .running (RunsFrom.start _ n s) rfl ⟨by simp, by simp, by simp, by simp, by simp⟩
    ⟨by simp, by simp, by simp⟩

/-- R82: what `B64DEC` can answer with a next state. -/
theorem execAt_dec_eq_next {n : Nat} {s t : State w} (h : execAt (.b64dec n) s = .next t) :
    (Succeeded (startTransition opB64Dec n s) t ∧ Scanned (sourceOf s n) t ∧ t.si.toNat = (sourceOf s n).length ∧
        (sourceOf s n).length % 4 = 0) ∨
      ∃ r, FailedAt (startTransition opB64Dec n s) (sourceOf s n) r t := by
  obtain ⟨hc, ht⟩ := andThen_beginOp_eq_next h
  obtain ⟨hadm, hlen⟩ := admissible_startTransition rfl hc
  have hreached := runToDone_induct (fun _ _ => decStep_reached hadm rfl rfl) (decReached_start n s _) ht
  rw [hlen] at hreached
  exact hreached.of_done (execAt_ends h).2

/-- R126: a `B64DEC` that may start and answers no next state has run out of room. -/
theorem execAt_dec_eq_dstOverrun {n : Nat} {s : State w} (hc : CanStart opB64Dec n s)
    (hnext : ∀ t, execAt (.b64dec n) s ≠ .next t) : execAt (.b64dec n) s = .fault .dstOverrun := by
  have hrun : execAt (.b64dec n) s = runToDone decStep (n + 1) (startTransition opB64Dec n s) := andThen_beginOp hc _
  obtain ⟨hadm, -⟩ := admissible_startTransition rfl hc
  rw [hrun] at hnext ⊢
  exact runToDone_eq_dstOverrun (fun _ _ => decStep_reached hadm rfl rfl)
    (fun u hp hu => decStep_enabled (hu.of_run hp).1.si_le) decStep_ne_refused (decReached_start n s _) hnext

end Operation

/-- Settles O25: `B64ENC` answers only states in which its operation has ended as a success. -/
theorem encoderFrame : Obligations.EncoderFrame := by
  intro w n s t h
  obtain ⟨⟨run, hphase, hfail, hresult⟩, hmark, -⟩ := execAt_enc_eq_next h
  refine ⟨hresult ▸ run.outside, ?_⟩
  have hupdate := run.command.eq_update
  rw [hphase, hfail, hmark, run.fresh] at hupdate
  exact hupdate

/-- Settles O26: where `B64ENC` ends, `DI` is `B64ENCLEN(LEN)` and within `DCAP`. -/
theorem encoderShortBufferFaults : Obligations.EncoderShortBufferFaults := by
  intro w n s hc hshort
  refine execAt_enc_eq_dstOverrun hc fun t ht => ?_
  obtain ⟨⟨run, -, -, -⟩, -, hdi⟩ := execAt_enc_eq_next ht
  have hle := run.di_le
  rw [hdi, run.command.bufs] at hle
  exact absurd hshort (not_lt.2 hle)

/-- Settles O39: where `B64DEC` ends, `DI` counts the bytes of the units completed and is within `DCAP`; it ends as a
success on an accepted text only, and as a failure where the text is rejected. -/
theorem decoderShortBufferFaults : Obligations.DecoderShortBufferFaults := by
  intro w n s hc
  constructor
  · intro y hy hshort
    refine execAt_dec_eq_dstOverrun hc fun t ht => ?_
    obtain ⟨hclean, hunits, -⟩ := decText_eq_some.1 hy
    rw [length_of_decText hy] at hshort
    obtain ⟨⟨run, -, -, -⟩, scanned, hsi, -⟩ | ⟨r, failure⟩ := execAt_dec_eq_next ht
    · have hle := run.di_le
      rw [scanned.di, hsi, run.command.bufs] at hle
      exact absurd hshort (not_lt.2 hle)
    · obtain ⟨hlt, hoff⟩ | ⟨-, hpart⟩ := failure.found
      · exact absurd (hclean _ hlt) (by simp [hoff])
      · exact hpart hunits
  · intro c i hi hshort
    refine execAt_dec_eq_dstOverrun hc fun t ht => ?_
    obtain ⟨-, scanned, hsi, hunits⟩ | ⟨r, run, scanned, -, hfound⟩ := execAt_dec_eq_next ht
    · cases (failCause_eq_none (hsi ▸ scanned.clean) hunits).symm.trans hi
    · have hle := run.di_le
      rw [scanned.di, failCause_index hi scanned.clean hfound, run.command.bufs] at hle
      exact absurd hshort (not_lt.2 hle)

/-- Settles O40: `B64DEC` ends as a success, or by the failure exit, which leaves the destination alone open. -/
theorem decoderFrame : Obligations.DecoderFrame := by
  intro w n s t h
  obtain ⟨⟨run, hphase, hfail, hresult⟩, -⟩ | ⟨r, run, -, ⟨c, rfl⟩, -⟩ := execAt_dec_eq_next h
  · have hupdate := run.command.eq_update
    rw [hphase] at hupdate
    exact ⟨hupdate, fun _ => ⟨run.fresh, hresult ▸ run.outside⟩, fun hf => by simp [hfail] at hf⟩
  · have hcmd : SameCommand (startTransition opB64Dec n s) (takeFail c r) :=
      ⟨run.command.op, run.command.len, run.command.bufs, run.command.inbox⟩
    exact ⟨hcmd.eq_update, nofun, fun _ => ⟨rfl, fun _ => run.takeFail_read_outside c⟩⟩

end Sys2Proof.Machine

/-! ## Command words, the two texts and the table: O1 to O5, O7, O8, O29, O47

A command word is its two fields: `OP` is the word divided by `2^LENW` and `LEN` the rest (R46). The decoder and the
encoder are each described once in these terms, and O1, O2 and O3 compare the two descriptions. -/

namespace Sys2Proof.Machine

section CommandWords
variable {w : Nat}

/-- R46: `OP` stands above the `LENW` bits of `LEN`. -/
theorem toNat_opField (c : CommandWord w) : (opField c).toNat = c.toNat / 2 ^ w := by
  have hlt : c.toNat / 2 ^ w < 2 ^ 2 := Nat.div_lt_of_lt_mul (Nat.pow_add 2 w 2 ▸ c.isLt)
  rw [opField, slice_toNat, Nat.mod_eq_of_lt hlt]

/-- R46: `LEN` is the low `LENW` bits. -/
theorem toNat_lenField (c : CommandWord w) : (lenField c).toNat = c.toNat % 2 ^ w := by
  rw [lenField, slice_toNat, Nat.pow_zero, Nat.div_one]

/-- R46: the operand of the decoded command is the word's `LEN` field. -/
theorem lenOf_decode (c : CommandWord w) : (decode c).lenOf = (lenField c).toNat := by
  rw [decode]
  split_ifs <;> rfl

/-- R46, R47: a word decodes to the command that has its operation code and its operand. -/
theorem decode_eq_of_fields {c : CommandWord w} {i : Instr} (hop : opField c = opOf i)
    (hlen : c.toNat % 2 ^ w = i.lenOf) : decode c = i := by
  simp only [decode, hop, toNat_lenField, hlen]
  cases i <;> rfl

/-- `decode_eq_of_fields` with the operation code as a quotient. -/
theorem decode_eq_of_div {c : CommandWord w} {i : Instr} (hop : c.toNat / 2 ^ w = (opOf i).toNat)
    (hlen : c.toNat % 2 ^ w = i.lenOf) : decode c = i :=
  decode_eq_of_fields (BitVec.eq_of_toNat_eq ((toNat_opField c).trans hop)) hlen

theorem wf_iff {i : Instr} : i.wf w = true ↔ i.lenOf < 2 ^ w := decide_eq_true_iff

/-- R46: a well-formed command fills its word without a carry out of it. -/
theorem toNat_encode {i : Instr} (h : i.wf w = true) : (encode i w).toNat = (opOf i).toNat * 2 ^ w + i.lenOf := by
  have hfits : (opOf i).toNat * 2 ^ w + i.lenOf < 2 ^ (w + 2) := calc
    _ < ((opOf i).toNat + 1) * 2 ^ w := by rw [Nat.succ_mul]; exact Nat.add_lt_add_left (wf_iff.1 h) _
    _ ≤ 2 ^ 2 * 2 ^ w := Nat.mul_le_mul_right _ (opOf i).isLt
    _ = 2 ^ (w + 2) := by rw [← Nat.pow_add, Nat.add_comm]
  rw [encode, BitVec.toNat_ofNat, Nat.mod_eq_of_lt hfits]

/-- R47: the mask `0x3_0000_0000` keeps the `OP` field of a 34-bit word whole. -/
theorem opField_and_mask (c : CommandWord) : opField (c &&& 0x300000000#34) = opField c := by
  have hmask : opField (w := 32) 0x300000000#34 = BitVec.allOnes 2 := by decide
  calc opField (c &&& 0x300000000#34)
      = opField c &&& opField (w := 32) 0x300000000#34 := BitVec.extractLsb'_and
    _ = opField c := by rw [hmask, BitVec.and_allOnes]

/-- R47: a word whose masked bits are the match value `m` decodes to the command that has `m`'s operation code. -/
theorem decode_eq_of_match {c m : CommandWord} {i : Instr} (hmatch : c &&& 0x300000000#34 = m)
    (hop : opField m = opOf i) (hlen : c.toNat % 2 ^ 32 = i.lenOf) : decode c = i :=
  decode_eq_of_fields ((opField_and_mask c).symm.trans (hmatch ▸ hop)) hlen

end CommandWords

/-- Settles O1: the two fields of an encoded command are its operation code and its operand. -/
theorem decodeInvertsEncode : Obligations.DecodeInvertsEncode := by
  intro w i h
  have hlt := wf_iff.1 h
  apply decode_eq_of_div
  · rw [toNat_encode h, Nat.add_comm, Nat.add_mul_div_right _ _ (Nat.two_pow_pos w), Nat.div_eq_of_lt hlt, Nat.zero_add]
  · rw [toNat_encode h, Nat.mul_add_mod_self_right, Nat.mod_eq_of_lt hlt]

/-- Settles O2: a word is the quotient and the remainder that its two fields are. -/
theorem everyWordEncodesItsCommand : Obligations.EveryWordEncodesItsCommand := by
  intro w c
  have hwf : (decode c).wf w = true := wf_iff.2 (lenOf_decode c ▸ (lenField c).isLt)
  refine ⟨hwf, BitVec.eq_of_toNat_eq ?_⟩
  rw [toNat_encode hwf, opOf_decode, lenOf_decode, toNat_opField, toNat_lenField, Nat.div_add_mod']

/-- Settles O3: each match value is its command's operation code above 32 zeros. -/
theorem operationCodeSelectsCommand : Obligations.OperationCodeSelectsCommand := by
  constructor
  · intro c
    exact ⟨fun h => decode_eq_of_match h rfl rfl, fun h => decode_eq_of_match h rfl rfl,
      fun h => decode_eq_of_match h rfl rfl, fun h => decode_eq_of_match h rfl rfl⟩
  · intro w c
    exact ⟨fun h => decode_eq_of_div h rfl, fun h => decode_eq_of_div h rfl, fun h => decode_eq_of_div h rfl,
      fun h => decode_eq_of_div h rfl⟩

/-- Settles O4: each printed word has its command's operation code and operand. -/
theorem programWordsDecode : Obligations.ProgramWordsDecode :=
  ⟨decode_eq_of_div rfl rfl, decode_eq_of_div rfl rfl, decode_eq_of_div rfl rfl, decode_eq_of_div rfl rfl⟩

/-- Log 6: with a host action pending, the step is that action's delivery. -/
theorem stepAt_host {w : Nat} {s : State w} {a : HostAction w} {rest : List (HostAction w)} (h : s.inbox = a :: rest) :
    stepAt s = deliver a { s with inbox := rest } := by
  rw [stepAt, h]

/-- Settles O5: the step delivers the host's action, which for a command is its execution once it is attached. -/
theorem stepExecutesIssuedCommand : Obligations.StepExecutesIssuedCommand := by
  refine ⟨fun s c rest h => ?_, fun w s rest => ⟨fun c => stepAt_host, fun c => stepAt_host, stepAt_host⟩,
    fun _ => rfl, exec_eq_execAt⟩
  rw [exec_eq_execAt]
  exact stepAt_host h

/-! ### The Alphabet Table -/

/-- Settles O7: 64 entries, read off one by one. -/
theorem alphabetIsOrderedSequence : Obligations.AlphabetIsOrderedSequence :=
  ⟨rfl, by decide, by decide⟩

/-- R51: the entry of a symbol's code is the symbol's value. -/
theorem invTable_sym : ∀ v : SymVal, invTable.getD (sym v).toNat none = some v := by decide

/-- R51: a code whose entry is valid is the code of that symbol. -/
theorem sym_of_invTable : ∀ c : Byte, ∀ v ∈ invTable.getD c.toNat none, sym v = c := by decide

/-- R61, R51: below 128 the range test turns away the codes 0x00 and 0x7F only, and their entries are invalid. -/
theorem val_eq_invTable {c : Byte} (h : c.toNat < 128) : val c = invTable.getD c.toNat none := by
  rw [val]
  split_ifs with hrange
  · obtain hc | hc : c.toNat = 0 ∨ c.toNat = 127 := by omega
    · rw [hc]; rfl
    · rw [hc]; rfl
  · rfl

/-- Settles O8: the two directions of the inverse law are read off the two tables. -/
theorem inverseTableInvertsAlphabet : Obligations.InverseTableInvertsAlphabet := by
  refine ⟨rfl, by decide, fun c v => ⟨sym_of_invTable c v, ?_⟩, by decide, fun c => val_eq_invTable⟩
  rintro rfl
  exact invTable_sym v

/-! ### The two texts -/

/-- Settles O29: a whole unit adds four symbols; the tail of one or two bytes is two or three symbols and its pads. -/
theorem encodedTextIsSymbolsThenPads : Obligations.EncodedTextIsSymbolsThenPads := by
  intro b
  induction b using encText.induct with
  | case1 x y z t ih =>
    obtain ⟨body, hbody⟩ := ih
    refine ⟨x.extractLsb' 2 6 :: (x.extractLsb' 0 2 ++ y.extractLsb' 4 4) :: (y.extractLsb' 0 4 ++ z.extractLsb' 6 2) ::
      z.extractLsb' 0 6 :: body, ?_⟩
    have hlen : (x :: y :: z :: t).length % 3 = t.length % 3 := Nat.add_mod_right t.length 3
    rw [encText, hbody, hlen]
    rfl
  | case2 x y =>
    exact ⟨[x.extractLsb' 2 6, x.extractLsb' 0 2 ++ y.extractLsb' 4 4, y.extractLsb' 0 4 ++ 0#2], rfl⟩
  | case3 x => exact ⟨[x.extractLsb' 2 6, x.extractLsb' 0 2 ++ 0#4], rfl⟩
  | case4 => exact ⟨[], rfl⟩

/-- R117: an offending character is the cause itself; truncation is none of its three causes. -/
theorem failCause_of_offender {t : List Byte} {i : Nat} (h : firstOffender t = some i) :
    ∃ c, failCause t = some (c, i) ∧ c ≠ .truncatedInput := by
  rw [failCause, h]
  dsimp only
  split <;> exact ⟨_, rfl, nofun⟩

/-- R114: every character accepted, a text whose units are not whole is truncated, at its end. -/
theorem failCause_of_clean {t : List Byte} (hclean : ∀ j < t.length, offends t j = false) (hpart : t.length % 4 ≠ 0) :
    failCause t = some (.truncatedInput, t.length) := by
  rw [failCause, firstOffender_none.2 hclean]
  exact if_neg hpart

/-- R94: `DEC` fails on a text with an offender and on one whose units are not whole. -/
theorem decText_eq_none {t : List Byte} : decText t = none ↔ firstOffender t ≠ none ∨ t.length % 4 ≠ 0 := by
  rw [decText, ← not_and_or]
  split_ifs with h
  · simp [h]
  · simp [h]

/-- Settles O47: a text has an offender, or no offender and part of a unit at its end, or neither. -/
theorem truncationFoundLast : Obligations.TruncationFoundLast := by
  intro t
  rw [decText_eq_none]
  cases hfirst : firstOffender t with
  | some i =>
    obtain ⟨c, hcause, hc⟩ := failCause_of_offender hfirst
    obtain ⟨hi, hoff, -⟩ := firstOffender_some.1 hfirst
    refine ⟨⟨fun _ => ⟨c, i, hcause⟩, fun _ => .inl nofun⟩, ?_, ?_⟩
    · rintro ⟨j, hj⟩
      cases hcause.symm.trans hj
      exact absurd rfl hc
    · rintro ⟨hclean, -⟩
      simp [hclean i hi] at hoff
  | none =>
    have hclean := firstOffender_none.1 hfirst
    by_cases hunits : t.length % 4 = 0
    · simp [failCause_eq_none hclean hunits, hunits]
    · exact ⟨⟨fun _ => ⟨_, _, failCause_of_clean hclean hunits⟩, fun _ => .inr hunits⟩,
        fun _ => ⟨hclean, hunits⟩, fun _ => ⟨_, failCause_of_clean hclean hunits⟩⟩

end Sys2Proof.Machine

/-! ## The two lookups and the character classes: O9, O10, O11

`VAL` is described once, as the inverse of `SYM` (`val_eq_some`), and `CLASS` once, by what each class says of the
character (`classify_cases`). -/

namespace Sys2Proof.Machine

/-- R56: the codes outside a class are those its members leave of the 256. -/
theorem length_filter_not {p : Nat → Bool} {n : Nat} (h : ((List.range 256).filter p).length = n) :
    ((List.range 256).filter fun c => !p c).length = 256 - n := by
  have hsplit := (List.range 256).length_eq_length_filter_add p
  rw [List.length_range, h] at hsplit
  omega

/-! ### The two lookups -/

/-- R60: the codes of the symbols lie inside the inverse table. -/
theorem sym_toNat_lt : ∀ v : SymVal, (sym v).toNat < 128 := by decide

/-- R63: `VAL` is the inverse of `SYM`. -/
theorem val_eq_some {c : Byte} {v : SymVal} : val c = some v ↔ sym v = c := by
  constructor
  · intro h
    rw [val] at h
    split_ifs at h
    exact sym_of_invTable c v h
  · rintro rfl
    rw [val_eq_invTable (sym_toNat_lt v), invTable_sym]

/-- R61: the codes on which `VAL` is valid, 64 of the 256. -/
theorem length_filter_val_isSome :
    ((List.range 256).filter fun c => (val (BitVec.ofNat 8 c)).isSome).length = 64 := by decide

/-- Settles O10: both inverse laws and the image are `val_eq_some`, and `SYM` is injective as it has a left inverse. -/
theorem lookupsAreInverse : Obligations.LookupsAreInverse := by
  refine ⟨fun v => val_eq_some.2 rfl, fun c v => val_eq_some.1, fun a b hab => ?_,
    fun c => exists_congr fun v => val_eq_some.symm, length_filter_val_isSome⟩
  have hval : some a = some b := (val_eq_some.2 hab).symm.trans (val_eq_some.2 rfl)
  exact Option.some.inj hval

/-- R60: the entries of `ALPHA` are the codes of the 64 symbols. -/
theorem mem_alphaTable {c : Byte} : c ∈ alphaTable ↔ ∃ v, sym v = c := by
  constructor
  · intro hc
    obtain ⟨i, hi, rfl⟩ := List.mem_iff_getElem.1 hc
    refine ⟨BitVec.ofNat 6 i, ?_⟩
    rw [sym, BitVec.toNat_ofNat, Nat.mod_eq_of_lt (b := 2 ^ 6) hi, List.getD_eq_getElem _ _ hi]
  · rintro ⟨v, rfl⟩
    rw [sym, List.getD_eq_getElem alphaTable _ v.isLt]
    exact List.getElem_mem _

/-- R61: `VAL` is valid on exactly the characters of `ALPHA`. -/
theorem val_isSome {c : Byte} : (val c).isSome = true ↔ c ∈ alphaTable := by
  rw [Option.isSome_iff_exists, mem_alphaTable]
  exact exists_congr fun v => val_eq_some

/-- Settles O9: the range test read the other way round, the domain of `VAL` as `ALPHA`, and the codes outside it as
those left of the 256. -/
theorem inverseLookupRangeTest : Obligations.InverseLookupRangeTest := by
  refine ⟨fun c => ?_, fun c => val_isSome, length_filter_val_isSome, ?_, by decide, rfl⟩
  · rw [val]
    split_ifs
    · omega
    · rfl
    · rfl
    · omega
  · simpa only [Option.not_isSome] using length_filter_not length_filter_val_isSome

/-! ### The character classes -/

/-- R62, R56: what each class says of its character. -/
theorem classify_cases (c : Byte) :
    (classify c = .ws ∧ (c = 0x09#8 ∨ c = 0x0A#8 ∨ c = 0x0D#8 ∨ c = 0x20#8)) ∨ (classify c = .pad ∧ c = 0x3D#8) ∨
      (∃ v, classify c = .symbol v ∧ c = sym v) ∨ classify c = .invalid := by
  rw [classify]
  split_ifs with hws hpad
  · exact .inl ⟨rfl, by tauto⟩
  · exact .inr (.inl ⟨rfl, hpad⟩)
  · cases hval : val c with
    | some v => exact .inr (.inr (.inl ⟨v, rfl, (val_eq_some.1 hval).symm⟩))
    | none => exact .inr (.inr (.inr rfl))

theorem classify_eq_ws {c : Byte} : classify c = .ws ↔ c = 0x09#8 ∨ c = 0x0A#8 ∨ c = 0x0D#8 ∨ c = 0x20#8 := by
  constructor
  · intro h
    simpa [h] using classify_cases c
  · rintro (rfl | rfl | rfl | rfl) <;> rfl

theorem classify_eq_pad {c : Byte} : classify c = .pad ↔ c = 0x3D#8 := by
  constructor
  · intro h
    simpa [h] using classify_cases c
  · rintro rfl
    exact classify_padCh

theorem classify_eq_symbol {c : Byte} {v : SymVal} : classify c = .symbol v ↔ c = sym v := by
  constructor
  · intro h
    simpa [h] using classify_cases c
  · rintro rfl
    exact classify_sym v

/-- R62: 69 of the 256 codes are not `INVALID`: 4 of whitespace, the pad and 64 symbols. -/
theorem length_filter_classify_ne_invalid :
    ((List.range 256).filter fun c => classify (BitVec.ofNat 8 c) != .invalid).length = 69 := by decide

/-- Settles O11: the order of tests is the definition's own, the members of each class are its lemma above, and
`INVALID` is what the other three classes leave of the 256 codes. -/
theorem characterClassesPartition : Obligations.CharacterClassesPartition := by
  refine ⟨fun _ => rfl, fun _ => classify_eq_ws, fun _ => classify_eq_pad, fun _ _ => classify_eq_symbol, by decide,
    length_filter_val_isSome, ?_⟩
  simpa only [bne, Bool.not_not] using length_filter_not length_filter_classify_ne_invalid

end Sys2Proof.Machine

/-! ## The encoder step by step and as a whole: O20, O21, O22, O24, O27, O28, O30

After `k` elements the source read so far is whole groups, whose text stands in the destination, and the bytes of a
group in progress, which stand in their lanes (`EncAt`). A byte step goes from there to `k + 1`; the closing step writes
the group in progress as the tail. -/

namespace Sys2Proof.Machine

section Encoder
variable {w : Nat}

/-! ### The encoded text -/

/-- R50: the pad is no symbol of the alphabet. -/
theorem sym_ne_padCh (v : SymVal) : sym v ≠ Config.padCh := by
  intro h
  have hclass := classify_sym v
  rw [h] at hclass
  cases classify_padCh.symm.trans hclass

/-- R80: every unit is four characters, the tail's included. -/
theorem length_encText (b : List Byte) : (encText b).length = encodedLength b.length := by
  induction b using encText.induct with
  | case1 x y z t ih =>
    have hunit : (unit3 x y z).length = 4 := rfl
    rw [encText, List.length_append, ih, hunit]
    simp only [encodedLength, List.length_cons]
    omega
  | case2 x y => simp [encText, unit2, encodedLength]
  | case3 x => simp [encText, unit1, encodedLength]
  | case4 => simp [encText, encodedLength]

/-- R52: the four fields of a group give its three bytes back. -/
theorem groupBytes_fields (x y z : Byte) :
    groupBytes (x.extractLsb' 2 6 ++ (x.extractLsb' 0 2 ++ y.extractLsb' 4 4 : SymVal) ++
      (y.extractLsb' 0 4 ++ z.extractLsb' 6 2 : SymVal) ++ z.extractLsb' 0 6) = [x, y, z] := by
  have hx := x.isLt
  have hy := y.isLt
  have hz := z.isLt
  rw [groupBytes_append, List.cons.injEq, List.cons.injEq, List.cons.injEq]
  refine ⟨BitVec.eq_of_toNat_eq ?_, BitVec.eq_of_toNat_eq ?_, BitVec.eq_of_toNat_eq ?_, rfl⟩ <;>
    simp only [append_toNat, slice_toNat] <;> omega

theorem charValue_sym (v : SymVal) : charValue (sym v) = v := by rw [charValue, classify_sym]

theorem charValue_padCh : charValue Config.padCh = 0#6 := by rw [charValue, Config.padCh, classify_padCh]

/-- The bytes that a unit of an encoded text stands for: as many of its group's as its pads leave (R79). -/
def readUnit (a b c d : Byte) : List Byte :=
  (groupBytes (charValue a ++ charValue b ++ charValue c ++ charValue d)).take
    (if c = Config.padCh then 1 else if d = Config.padCh then 2 else 3)

/-- The bytes that an encoded text stands for, unit by unit. -/
def readBack : List Byte → List Byte
  | a :: b :: c :: d :: t => readUnit a b c d ++ readBack t
  | _ => []

theorem readBack_unit3_append (x y z : Byte) (t : List Byte) :
    readBack (unit3 x y z ++ t) = [x, y, z] ++ readBack t := by
  refine congrArg (· ++ readBack t) ?_
  rw [readUnit, if_neg (sym_ne_padCh _), if_neg (sym_ne_padCh _)]
  simp only [charValue_sym]
  exact congrArg (List.take 3) (groupBytes_fields x y z)

theorem readBack_unit2 (x y : Byte) : readBack (unit2 x y) = [x, y] := by
  refine (List.append_nil _).trans ?_
  rw [readUnit, if_neg (sym_ne_padCh _), if_pos rfl]
  simp only [charValue_sym, charValue_padCh]
  exact congrArg (List.take 2) (groupBytes_fields x y 0#8)

theorem readBack_unit1 (x : Byte) : readBack (unit1 x) = [x] := by
  refine (List.append_nil _).trans ?_
  rw [readUnit, if_pos rfl]
  simp only [charValue_sym, charValue_padCh]
  exact congrArg (List.take 1) (groupBytes_fields x 0#8 0#8)

/-- R80: an encoded text reads back as the bytes it encodes. -/
theorem readBack_encText (b : List Byte) : readBack (encText b) = b := by
  induction b using encText.induct with
  | case1 x y z t ih =>
    rw [encText, readBack_unit3_append, ih]
    rfl
  | case2 x y => rw [encText, readBack_unit2]
  | case3 x => rw [encText, readBack_unit1]
  | case4 => rfl

/-! ### The group in progress -/

/-- R53, R73: the bytes of a group in progress, as `ACC` and `POS` hold them. -/
inductive Pending : List Byte → Group → BitVec 2 → Prop where
  | none : Pending [] 0#24 2#2
  | one (x : Byte) : Pending [x] (lane x 2#2) 1#2
  | two (x y : Byte) : Pending [x, y] (lane x 2#2 ||| lane y 1#2) 0#2

variable {part : List Byte} {acc : Group} {pos : BitVec 2}

theorem Pending.pos_add_length (h : Pending part acc pos) :
    pos.toNat + part.length = 2 := by
  cases h <;> rfl

/-- R73: a byte that does not complete the group. -/
theorem Pending.byte (h : Pending part acc pos) (hpos : pos ≠ 0#2)
    (z : Byte) : Pending (part ++ [z]) (acc ||| lane z pos) (pos - 1#2) := by
  cases h with
  | none => simpa using Pending.one z
  | one x => exact .two x z
  | two x y => exact absurd rfl hpos

/-- R74: the byte that completes the group. -/
theorem Pending.flush (h : Pending part acc 0#2) (z : Byte) :
    flush4 (acc ||| lane z 0#2) = encText (part ++ [z]) := by
  cases h with
  | two x y => exact flush4_lanes x y z

/-- R75: no byte pending. -/
theorem Pending.eq_nil (h : Pending part acc 2#2) : part = [] := by
  cases h
  rfl

/-- R76, R77: the tail. -/
theorem Pending.tail (h : Pending part acc pos) (hpos : pos ≠ 2#2) :
    encTail acc pos = encText part := by
  cases h with
  | none => exact absurd rfl hpos
  | one x => exact tail1_lane x
  | two x y => exact tail2_lanes x y

theorem Pending.pos_cases (h : Pending part acc pos) :
    pos = 2#2 ∨ pos = 1#2 ∨ pos = 0#2 := by
  cases h <;> simp

/-! ### The steps that write, where there is room -/

/-- R74: the flush of a full group. -/
theorem encStep_flush_next {s : State w} (hlt : s.si < s.len) (hpos : s.pos = 0#2)
    (hcap : s.di.toNat + 4 ≤ s.bufs.dcap) (hw : s.di.toNat + 4 < 2 ^ w) :
    encStep s =
      .next { s with
        mem := s.mem.writeBytes (s.bufs.dst + s.di.toNat) (flush4 (s.acc ||| lane (readSrc s) 0#2))
        di := s.di + 4#w, acc := 0#24, pos := 2#2, si := s.si + 1 } := by
  rw [encStep_flush hlt hpos, emitAll_next _ _ hcap hw, andThen_next, hpos]
  rfl

/-- R76 to R78: the closing step of a partial group. -/
theorem encStep_tail_next {s : State w} (hend : s.si = s.len) (hpos : s.pos = 1#2 ∨ s.pos = 0#2)
    (hcap : s.di.toNat + 4 ≤ s.bufs.dcap) (hw : s.di.toNat + 4 < 2 ^ w) :
    encStep s =
      .next (takeDone (s.di + 4#w) { s with
        mem := s.mem.writeBytes (s.bufs.dst + s.di.toNat) (encTail s.acc s.pos)
        di := s.di + 4#w }) := by
  have htail := encTail_length s.acc s.pos
  rw [encStep_tail hend hpos, emitAll_next _ _ (by rwa [htail]) (by rwa [htail]), andThen_next, htail]

/-! ### The operation -/

/-- Repeating a step in two runs. -/
theorem runToDone_add (f : State w → Result w) (a b : Nat) (s : State w) :
    runToDone f (a + b) s = andThen (runToDone f a s) (runToDone f b) := by
  induction a generalizing s with
  | zero => simp
  | succ a ih =>
    by_cases hp : s.phase = .run
    · rw [Nat.add_right_comm, runToDone_run hp, runToDone_run hp]
      cases f s with
      | next u => exact ih u
      | fault r => rfl
      | refused r => rfl
    · rw [runToDone_stop hp, runToDone_stop hp, andThen_next, runToDone_stop hp]

/-- Where the encoder's operation that began in `s₀` stands in `s`: of the source read so far, the text of `whole` is
written and `part` is pending. -/
structure EncAt (s₀ s : State w) (whole part : List Byte) : Prop where
  run : RunsFrom s₀ s
  phase : s.phase = .run
  regs : EncRegs s
  source : whole ++ part = (sourceOf s₀ s₀.len.toNat).take s.si.toNat
  groups : whole.length % 3 = 0
  pending : Pending part s.acc s.pos
  mem : s.mem = s₀.mem.writeBytes s₀.bufs.dst (encText whole)

section Operation
variable {s₀ s : State w} {whole : List Byte}

/-- R23: the start. -/
theorem encAt_start (n : Nat) (s : State w) :
    EncAt (startTransition opB64Enc n s) (startTransition opB64Enc n s) [] [] :=
  have ⟨run, regs⟩ := (encReached_start n s).of_run rfl
  ⟨run, rfl, regs, by simp, rfl, .none, rfl⟩

/-- R80: `DI` counts the characters written. -/
theorem EncAt.di_eq (h : EncAt s₀ s whole part) : s.di.toNat = (encText whole).length := by
  obtain ⟨-, -, hdi, -⟩ := h.regs
  have hlen := congrArg List.length h.source
  have hsi := h.run.si_le
  have hpart := h.pending.pos_add_length
  have hgroups := h.groups
  rw [h.run.command.len] at hsi
  rw [List.length_append, List.length_take, sourceOf, Memory.length_readBytes, Nat.min_eq_left hsi] at hlen
  rw [length_encText, encodedLength]
  omega

/-- R32: the next characters go behind those written. -/
theorem EncAt.writeBytes (h : EncAt s₀ s whole part) (bs : List Byte) :
    s.mem.writeBytes (s.bufs.dst + s.di.toNat) bs = s₀.mem.writeBytes s₀.bufs.dst (encText whole ++ bs) := by
  rw [Memory.writeBytes_append, ← h.mem, ← h.di_eq, h.run.command.bufs]

/-- R31: the element read next is the source's next. -/
theorem EncAt.source_succ (h : EncAt s₀ s whole part) (hadm : Admissible s₀) (hlt : s.si < s.len) :
    whole ++ (part ++ [readSrc s]) = (sourceOf s₀ s₀.len.toNat).take (s.si + 1).toNat := by
  obtain ⟨hsi, hle⟩ := toNat_si_succ hlt
  have hin : s.si.toNat < (sourceOf s₀ s₀.len.toNat).length := by
    rw [sourceOf, Memory.length_readBytes, ← h.run.command.len]
    exact hle
  rw [hsi, List.take_add_one, ← h.source, h.run.readSrc hadm hlt, List.getD_eq_getElem _ _ hin,
    List.getElem?_eq_getElem hin, Option.toList_some, List.append_assoc]

variable (hadm : Admissible s₀) (hop : s₀.op = opB64Enc)
include hadm hop

/-- R73, R74: the registers' part of a step within the operation. -/
theorem EncAt.run_regs {t : State w} (h : EncAt s₀ s whole part) (ht : encStep s = .next t) (hp : t.phase = .run) :
    RunsFrom s₀ t ∧ EncRegs t :=
  (encStep_reached hadm hop h.phase (.running h.run h.phase h.regs) ht).of_run hp

variable (hcap : encodedLength s₀.len.toNat ≤ s₀.bufs.dcap)
include hcap

/-- R80, R134: the destination has room for another unit, and so has the index. -/
theorem EncAt.room (h : EncAt s₀ s whole part) (hmore : s.si < s.len ∨ s.pos ≠ 2#2) :
    s.di.toNat + 4 ≤ s.bufs.dcap ∧ s.di.toNat + 4 < 2 ^ w := by
  obtain ⟨-, hest, -⟩ := hadm
  rw [hop, opB64Enc_eq, estimate_enc] at hest
  have hroom := h.regs.room h.run.si_le hmore
  rw [h.run.command.len] at hroom
  rw [h.run.command.bufs]
  exact ⟨hroom.trans hcap, (hroom.trans_lt hest).trans_le two_pow_pred_le⟩

/-- R73, R74: one element of the source. -/
theorem EncAt.step (h : EncAt s₀ s whole part) (hlt : s.si < s.len) :
    ∃ t whole' part', encStep s = .next t ∧ t.si = s.si + 1 ∧ EncAt s₀ t whole' part' := by
  have hsource := h.source_succ hadm hlt
  by_cases hpos : s.pos = 0#2
  · obtain ⟨hdcap, hw⟩ := h.room hadm hop hcap (.inl hlt)
    have hstep := encStep_flush_next hlt hpos hdcap hw
    obtain ⟨run, regs⟩ := h.run_regs hadm hop hstep h.phase
    have hpending := h.pending
    rw [hpos] at hpending
    have hpart : part.length = 2 := by simpa using hpending.pos_add_length
    refine ⟨_, whole ++ (part ++ [readSrc s]), [], hstep, rfl, run, h.phase, regs, ?_, ?_, .none, ?_⟩
    · rw [List.append_nil, hsource]
    · have hgroups := h.groups
      rw [List.length_append, List.length_append, hpart, List.length_singleton]
      omega
    · rw [encText_append _ h.groups, ← hpending.flush]
      exact h.writeBytes _
  · have hstep := encStep_byte hlt hpos
    obtain ⟨run, regs⟩ := h.run_regs hadm hop hstep h.phase
    exact ⟨_, whole, part ++ [readSrc s], hstep, rfl, run, h.phase, regs, hsource, h.groups, h.pending.byte hpos _,
      h.mem⟩

/-- R75 to R78: the closing step, with the whole source encoded. -/
theorem EncAt.close (h : EncAt s₀ s whole part) (hend : s.si = s.len) :
    ∃ t, encStep s = .next t ∧ t.mem = s₀.mem.writeBytes s₀.bufs.dst (encText (sourceOf s₀ s₀.len.toNat)) ∧
      t.si = s.si ∧ t.pos = s.pos := by
  have hall : whole ++ part = sourceOf s₀ s₀.len.toNat := by
    rw [h.source, hend, h.run.command.len, List.take_of_length_le]
    rw [sourceOf, Memory.length_readBytes]
  rw [← hall, encText_append part h.groups]
  by_cases hpos : s.pos = 2#2
  · have hpending := h.pending
    rw [hpos] at hpending
    refine ⟨_, encStep_close hend hpos, ?_, rfl, rfl⟩
    rw [hpending.eq_nil, encText, List.append_nil]
    exact h.mem
  · obtain ⟨hdcap, hw⟩ := h.room hadm hop hcap (.inr hpos)
    refine ⟨_, encStep_tail_next hend (h.pending.pos_cases.resolve_left hpos) hdcap hw, ?_, rfl, rfl⟩
    rw [← h.pending.tail hpos]
    exact h.writeBytes _

/-- R72: `k` elements of the source take `k` steps. -/
theorem EncAt.steps (k : Nat) {s : State w} {whole part : List Byte} (h : EncAt s₀ s whole part)
    (hk : s.si.toNat + k ≤ s.len.toNat) :
    ∃ u whole' part', runToDone encStep k s = .next u ∧ u.si.toNat = s.si.toNat + k ∧ EncAt s₀ u whole' part' := by
  induction k generalizing s whole part with
  | zero => exact ⟨s, whole, part, rfl, rfl, h⟩
  | succ k ih =>
    have hlt : s.si < s.len := show s.si.toNat < s.len.toNat by omega
    obtain ⟨t, whole₁, part₁, hstep, hsi, ht⟩ := h.step hadm hop hcap hlt
    have hsi' : t.si.toNat = s.si.toNat + 1 := hsi ▸ (toNat_si_succ hlt).1
    have hlen : t.len = s.len := (encStep_sameCommand hstep).len
    obtain ⟨u, whole₂, part₂, hrun, husi, hu⟩ := ih ht (by rw [hlen]; omega)
    exact ⟨u, whole₂, part₂, by rw [runToDone_run h.phase, hstep, andThen_next, hrun], by omega, hu⟩

end Operation

/-- R72, R134: where `B64ENC` may start and its destination is large enough, its first `k` steps. -/
theorem encAt_of_canStart {n : Nat} {s : State w} (hc : CanStart opB64Enc n s) (hcap : encodedLength n ≤ s.bufs.dcap)
    {k : Nat} (hk : k ≤ n) :
    ∃ u whole part, runToDone encStep k (startTransition opB64Enc n s) = .next u ∧ u.si.toNat = k ∧
      EncAt (startTransition opB64Enc n s) u whole part := by
  obtain ⟨hadm, hlen⟩ := admissible_startTransition rfl hc
  simpa using (encAt_start n s).steps hadm rfl (by rwa [hlen]) k (by rw [hlen]; simpa using hk)

/-- R70, R79, R134: where `B64ENC` may start and its destination is large enough, it ends with the source encoded. -/
theorem execAt_enc_next {n : Nat} {s : State w} (hc : CanStart opB64Enc n s) (hcap : encodedLength n ≤ s.bufs.dcap) :
    ∃ t, execAt (.b64enc n) s = .next t ∧ t.mem = s.mem.writeBytes s.bufs.dst (encText (sourceOf s n)) ∧
      t.si.toNat = n ∧ t.pos.toNat = 2 - n % 3 := by
  obtain ⟨hadm, hlen⟩ := admissible_startTransition rfl hc
  obtain ⟨u, whole, part, hrun, hsi, hu⟩ := encAt_of_canStart hc hcap le_rfl
  have hend : u.si = u.len := BitVec.eq_of_toNat_eq (by rw [hsi, hu.run.command.len, hlen])
  obtain ⟨t, hstep, hmem, htsi, htpos⟩ := hu.close hadm rfl (by rwa [hlen]) hend
  rw [hlen] at hmem
  obtain ⟨-, hpos, -⟩ := hu.regs
  refine ⟨t, ?_, hmem, by rw [htsi, hsi], by rw [htpos]; omega⟩
  calc execAt (.b64enc n) s
      = runToDone encStep (n + 1) (startTransition opB64Enc n s) := andThen_beginOp hc _
    _ = runToDone encStep 1 u := by rw [runToDone_add, hrun, andThen_next]
    _ = .next t := by rw [runToDone_run hu.phase, hstep, andThen_next, runToDone_zero]

/-- R70, R79: the outcome, register by register. -/
theorem encoderOutcome_of_canStart {n : Nat} {s : State w} (hc : CanStart opB64Enc n s)
    (hcap : encodedLength n ≤ s.bufs.dcap) : ∃ t, execAt (.b64enc n) s = .next t ∧ EncoderOutcome n s t := by
  obtain ⟨t, ht, hmem, hsi, hpos⟩ := execAt_enc_next hc hcap
  obtain ⟨⟨run, hphase, hfail, hresult⟩, hmark, hdi⟩ := execAt_enc_eq_next ht
  obtain ⟨-, hn, hest, -⟩ := hc
  have hsi' : t.si = BitVec.ofNat w n := BitVec.eq_of_toNat_eq (by rw [hsi, toNat_ofNat_of_admitted hn])
  have hdi' : t.di = BitVec.ofNat w (encodedLength n) :=
    BitVec.eq_of_toNat_eq (by rw [hdi]; exact (toNat_ofNat_of_admitted hest).symm)
  have hupdate := run.command.eq_update
  rw [hphase, hfail, hmark, run.fresh, hresult, hmem, hsi', hdi'] at hupdate
  refine ⟨t, ht, hupdate, by rw [hresult, hdi], hpos, ?_⟩
  rw [length_encText, sourceOf, Memory.length_readBytes]

end Encoder

/-- Settles O24: one statement at every width, and `exec` is `execAt` at the default one. -/
theorem encoderCompletes : Obligations.EncoderCompletes := by
  refine ⟨fun n s hc hcap => ?_, fun w n s => encoderOutcome_of_canStart⟩
  rw [exec_eq_execAt]
  exact encoderOutcome_of_canStart hc hcap

/-- Settles O21: the flush with room, its fields read as slices of the group. -/
theorem encoderFlushWritesFourSymbols : Obligations.EncoderFlushWritesFourSymbols := by
  rintro w s g hs ⟨hp, hop, hi⟩ hlt hpos rfl hcap
  obtain ⟨-, hw⟩ := hs.enc_room hp hop (.inl hlt)
  have hlane : lane (readSrc s) 0#2 = (readSrc s).setWidth 24 := by simp [lane]
  refine ⟨?_, sym_ne_padCh⟩
  rw [stepAt_engine hi, engineStep_of_enc hp hop, encStep_flush_next hlt hpos hcap hw, hlane, flush4]
  simp only [field_eq]
  rfl

/-- Settles O22: with no byte pending the step is `done(DI)`; otherwise it is the tail with room. -/
theorem encoderClosingStep : Obligations.EncoderClosingStep := by
  rintro w s hs ⟨hp, hop, hi⟩ hend
  have hroom (hpos : s.pos ≠ 2#2) : s.di.toNat + 4 < 2 ^ w := (hs.enc_room hp hop (.inr hpos)).2
  rw [stepAt_engine hi, engineStep_of_enc hp hop]
  refine ⟨fun hpos => encStep_close hend hpos, fun hpos hcap => ?_, fun hpos hcap => ?_⟩
  · rw [encStep_tail_next hend (.inl hpos) hcap (hroom (by simp [hpos])), hpos, encTail, if_pos rfl, tail1]
    simp only [field_eq]
    rfl
  · rw [encStep_tail_next hend (.inr hpos) hcap (hroom (by simp [hpos])), hpos, encTail, if_neg (by decide), tail2]
    simp only [field_eq]
    rfl

/-- Settles O27: the machine's own steps are the operation's, `n` for the source and one to close. -/
theorem encoderTakesLenPlusOneSteps : Obligations.EncoderTakesLenPlusOneSteps := by
  intro w n s t hi hcap ht
  obtain ⟨hc, rfl⟩ := beginOp_eq_next ht
  constructor
  · intro k hk
    obtain ⟨u, whole, part, hrun, hsi, hu⟩ := encAt_of_canStart hc hcap hk
    have hsteps := runToDone_eq_runSteps (s := startTransition opB64Enc n s) (fun _ => engineStep_of_enc)
      (fun _ _ => encStep_sameCommand) k rfl hi
    exact ⟨u, hsteps.symm.trans hrun, hu.phase, hsi⟩
  · obtain ⟨u, hu, -⟩ := execAt_enc_next hc hcap
    exact ⟨u, (execAt_transform_eq_runSteps (i := .b64enc n) rfl hc hi).symm.trans hu, (execAt_ends hu).2⟩

/-- Settles O28: `B64ENCLEN` of the length, by the units of the text. -/
theorem encodedTextLength : Obligations.EncodedTextLength := length_encText

/-- Settles O30: reading back is a left inverse of `ENC`. -/
theorem encodingIsInjective : Obligations.EncodingIsInjective := by
  intro b c h
  exact Function.LeftInverse.injective readBack_encText h

/-- Settles O20: the encoder's byte step, its lane written out. -/
theorem encoderByteEntersLane : Obligations.EncoderByteEntersLane := by
  rintro w s ⟨hp, hop, hi⟩ hlt hpos
  rw [stepAt_engine hi, engineStep_of_enc hp hop, encStep_byte hlt hpos]
  rfl

end Sys2Proof.Machine

/-! ## The decoded text, unit by unit: O42, O44, O45, O46

What unit `k` of a text yields is `unitRead`; an accepted text yields its units one after another (`textRead`). A text
goes on as another one in two ways: before any `=` the rest decodes as a text of its own (`decText_append`), and after
the first `=` every further unit yields what the marker says (`textRead_append`). -/

namespace Sys2Proof.Machine

/-! ### Units -/

/-- R94: what unit `k` of a text yields. -/
def unitRead (t : List Byte) (k : Nat) : List Byte := (groupBytes (unitGroup t k)).take (unitBytes t k)

theorem length_unitRead (t : List Byte) (k : Nat) : (unitRead t k).length = unitBytes t k :=
  List.length_take_of_le (unitBytes_range t k).2

/-- R94: what the units completed within the first `i` characters of a text yield. -/
def textRead (t : List Byte) (i : Nat) : List Byte := (List.range (i / 4)).flatMap (unitRead t)

/-- R94: an accepted text yields what its units do. -/
theorem decText_iff_textRead {t y : List Byte} :
    decText t = some y ↔ (∀ j < t.length, offends t j = false) ∧ t.length % 4 = 0 ∧ y = textRead t t.length :=
  decText_eq_some

theorem length_textRead (t : List Byte) (i : Nat) : (textRead t i).length = bytesBefore t i := by
  rw [textRead, List.length_flatMap, bytesBefore]
  simp only [length_unitRead]

/-- The last character of a unit completes it. -/
theorem textRead_succ_of_last (t : List Byte) {i : Nat} (h : i % 4 = 3) :
    textRead t (i + 1) = textRead t i ++ unitRead t (i / 4) := by
  have hunit : (i + 1) / 4 = i / 4 + 1 := by omega
  rw [textRead, textRead, hunit, List.range_succ, List.flatMap_append, List.flatMap_singleton]

theorem textRead_succ_of_not_last (t : List Byte) {i : Nat} (h : i % 4 ≠ 3) : textRead t (i + 1) = textRead t i := by
  have hunit : (i + 1) / 4 = i / 4 := by omega
  rw [textRead, textRead, hunit]

/-! ### A text that goes on -/

theorem getD_append_right_add (t u : List Byte) (j : Nat) : (t ++ u).getD (t.length + j) 0#8 = u.getD j 0#8 := by
  rw [List.getD_append_right _ _ _ _ (Nat.le_add_right _ _), Nat.add_sub_cancel_left]

theorem unitGroup_append_left {t : List Byte} (u : List Byte) {k : Nat} (hk : k < t.length / 4) :
    unitGroup (t ++ u) k = unitGroup t k := by
  have hget (j : Nat) (hj : j < 4) : (t ++ u).getD (4 * k + j) 0#8 = t.getD (4 * k + j) 0#8 :=
    List.getD_append _ _ _ _ (by omega)
  rw [unitGroup, unitGroup, hget 1 (by decide), hget 2 (by decide), hget 3 (by decide)]
  rw [show 4 * k = 4 * k + 0 from rfl, hget 0 (by decide)]

theorem unitGroup_append_right {t : List Byte} (u : List Byte) (ht : t.length % 4 = 0) (k : Nat) :
    unitGroup (t ++ u) (t.length / 4 + k) = unitGroup u k := by
  have hidx : 4 * (t.length / 4 + k) = t.length + 4 * k := by omega
  simp only [unitGroup, hidx, Nat.add_assoc, getD_append_right_add]

/-- R94: whole units, where those of the first part yield what they did before, and then the units of the rest. -/
theorem textRead_append {t u : List Byte} (ht : t.length % 4 = 0)
    (hkeep : ∀ k < t.length / 4, unitBytes (t ++ u) k = unitBytes t k) :
    textRead (t ++ u) (t ++ u).length = textRead t t.length ++
      (List.range (u.length / 4)).flatMap fun k => unitRead (t ++ u) (t.length / 4 + k) := by
  have hunits : (t ++ u).length / 4 = t.length / 4 + u.length / 4 := by
    rw [List.length_append]
    omega
  rw [textRead, hunits, List.range_add, List.flatMap_append, List.flatMap_map]
  congr 1
  refine List.flatMap_congr fun k hk => ?_
  have hk' := List.mem_range.1 hk
  rw [unitRead, unitRead, unitGroup_append_left u hk', hkeep k hk']

/-- R94: the first `=` of a text lies in the rest where the first part has none. -/
theorem firstPad_append_of_none {t : List Byte} (u : List Byte) (h : firstPad t = none) :
    firstPad (t ++ u) = (firstPad u).map (· + t.length) := by
  rw [firstPad] at h
  rw [firstPad, List.findIdx?_append, h]
  rfl

/-- A text without a `=` has no offender but whitespace and invalid characters, which offend wherever they stand. -/
theorem offends_append_left {t : List Byte} (u : List Byte) (h : firstPad t = none) {j : Nat} (hj : j < t.length) :
    offends (t ++ u) j = offends t j := by
  have hpad := firstPad_none h hj
  rw [offends, offends, List.getD_append _ _ _ _ hj]
  cases hc : classify (t.getD j 0#8) with
  | pad => exact absurd hc hpad
  | ws | invalid | symbol v => rfl

theorem offends_append_right {t : List Byte} (u : List Byte) (h : firstPad t = none) (ht : t.length % 4 = 0) (j : Nat) :
    offends (t ++ u) (t.length + j) = offends u j := by
  have hmod : (t.length + j) % 4 = j % 4 := by omega
  rw [offends, offends, getD_append_right_add, firstPad_append_of_none u h, hmod]
  cases firstPad u with
  | none => rfl
  | some p =>
    have hhere : (some (p + t.length) == some (t.length + j)) = (some p == some j) := by
      simp [beq_eq_decide, Nat.add_comm t.length]
    rw [Option.map_some, hhere]

/-- R94: the units before the first `=` yield three bytes, wherever that is; the others go by its place in the rest. -/
theorem unitBytes_append_left {t : List Byte} (u : List Byte) (h : firstPad t = none) {k : Nat}
    (hk : k < t.length / 4) : unitBytes (t ++ u) k = unitBytes t k := by
  rw [unitBytes, unitBytes, firstPad_append_of_none u h, h]
  cases firstPad u with
  | none => rfl
  | some p =>
    have hbefore : k < (p + t.length) / 4 := by omega
    exact if_pos hbefore

theorem unitBytes_append_right {t : List Byte} (u : List Byte) (h : firstPad t = none) (ht : t.length % 4 = 0)
    (k : Nat) : unitBytes (t ++ u) (t.length / 4 + k) = unitBytes u k := by
  rw [unitBytes, unitBytes, firstPad_append_of_none u h]
  cases firstPad u with
  | none => rfl
  | some p =>
    have hmod : (p + t.length) % 4 = p % 4 := by omega
    have hiff : t.length / 4 + k < (p + t.length) / 4 ↔ k < p / 4 := by omega
    simp only [Option.map_some, padBytes, hmod, hiff]

/-- R94: after full units without a `=` the rest decodes as a text of its own. -/
theorem decText_append {t u y z : List Byte} (hpad : firstPad t = none) (ht : decText t = some y)
    (hu : decText u = some z) : decText (t ++ u) = some (y ++ z) := by
  obtain ⟨htclean, htunits, rfl⟩ := decText_iff_textRead.1 ht
  obtain ⟨huclean, huunits, rfl⟩ := decText_iff_textRead.1 hu
  refine decText_iff_textRead.2 ⟨fun j hj => ?_, by rw [List.length_append]; omega, ?_⟩
  · by_cases hleft : j < t.length
    · rw [offends_append_left u hpad hleft, htclean j hleft]
    · obtain ⟨i, rfl⟩ := Nat.exists_eq_add_of_le (not_lt.1 hleft)
      rw [offends_append_right u hpad htunits, huclean i (by simpa using hj)]
  · rw [textRead_append htunits fun k => unitBytes_append_left u hpad]
    congr 1
    simp only [unitRead, unitGroup_append_right u htunits, unitBytes_append_right u hpad htunits]
    rfl

/-! ### A unit by itself -/

/-- R87, R88: what never fails a check behind the first two characters of a unit. -/
def SymbolOrPad (c : Byte) : Prop := classify c = .pad ∨ ∃ v, classify c = .symbol v

theorem symbolOrPad_sym (v : SymVal) : SymbolOrPad (sym v) := .inr ⟨v, classify_sym v⟩

theorem symbolOrPad_padCh : SymbolOrPad Config.padCh := .inl classify_padCh

theorem offends_of_symbol {t : List Byte} {i : Nat} {v : SymVal} (h : classify (t.getD i 0#8) = .symbol v) :
    offends t i = false := by rw [offends, h]

/-- R94: a pad or a symbol offends as the first `=` only, at position 0 or 1 of its unit. -/
theorem offends_of_symbolOrPad {t : List Byte} {i : Nat} (h : SymbolOrPad (t.getD i 0#8))
    (hfirst : firstPad t = some i → 2 ≤ i % 4) : offends t i = false := by
  obtain hpad | ⟨v, hsym⟩ := h
  · rw [offends, hpad]
    simpa [Nat.lt_iff_add_one_le] using hfirst
  · exact offends_of_symbol hsym

/-- R94: where the first `=` of such a unit stands, if it has one. -/
theorem firstPad_unit (a b : SymVal) (c d : Byte) :
    firstPad [sym a, sym b, c, d] = if c = Config.padCh then some 2 else if d = Config.padCh then some 3 else none := by
  have hpad (x : Byte) : (classify x == .pad) = decide (x = Config.padCh) := by
    rw [beq_eq_decide, decide_eq_decide]
    exact classify_eq_pad
  simp only [firstPad, List.findIdx?_cons, hpad, sym_ne_padCh]
  by_cases hc : c = Config.padCh <;> by_cases hd : d = Config.padCh <;> simp [hc, hd]

theorem readBack_unit (a b c d : Byte) : readBack [a, b, c, d] = readUnit a b c d := List.append_nil _

/-- R94, R96: a unit of two symbols and two more symbols or pads yields what its pads leave of its group. -/
theorem decText_unit (a b : SymVal) {c d : Byte} (hc : SymbolOrPad c) (hd : SymbolOrPad d) :
    decText [sym a, sym b, c, d] = some (readBack [sym a, sym b, c, d]) := by
  have hbytes : unitBytes [sym a, sym b, c, d] 0 =
      if c = Config.padCh then 1 else if d = Config.padCh then 2 else 3 := by
    rw [unitBytes, firstPad_unit]
    split_ifs <;> rfl
  refine decText_iff_textRead.2 ⟨fun j hj => ?_, by simp, ?_⟩
  · match j, hj with
    | 0, _ => exact offends_of_symbol (classify_sym a)
    | 1, _ => exact offends_of_symbol (classify_sym b)
    | 2, _ => exact offends_of_symbolOrPad hc fun _ => le_rfl
    | 3, _ => exact offends_of_symbolOrPad hd fun _ => by decide
  · have htext : textRead [sym a, sym b, c, d] 4 = unitRead [sym a, sym b, c, d] 0 := List.append_nil _
    refine Eq.trans ?_ htext.symm
    rw [readBack_unit, unitRead, hbytes]
    rfl

/-! ### The length of a decoded text -/

/-- R99: a unit yields at most three bytes. -/
theorem bytesBefore_le (t : List Byte) (i : Nat) : bytesBefore t i ≤ 3 * (i / 4) := by
  have h := List.sum_le_card_nsmul ((List.range (i / 4)).map (unitBytes t)) 3 (by
    simp only [List.forall_mem_map]
    exact fun k _ => (unitBytes_range t k).2)
  simpa [bytesBefore, Nat.mul_comm] using h

/-- R100: a run of units that yield the same number of bytes. -/
theorem sum_unitBytes {t : List Byte} {a m c : Nat} (h : ∀ k < m, unitBytes t (a + k) = c) :
    ((List.range m).map fun k => unitBytes t (a + k)).sum = c * m := by
  rw [List.sum_eq_card_nsmul _ c, List.length_map, List.length_range, smul_eq_mul, Nat.mul_comm]
  simpa using h

/-- R100: three bytes a unit while no `=` has come. -/
theorem bytesBefore_of_none {t : List Byte} (h : firstPad t = none) (i : Nat) : bytesBefore t i = 3 * (i / 4) := by
  have hsum := sum_unitBytes (t := t) (a := 0) (m := i / 4) (c := 3) fun k _ => by rw [unitBytes, h]
  simp only [Nat.zero_add] at hsum
  exact hsum

/-- R97: from the unit of the first `=` on, every unit yields what its place says. -/
theorem unitBytes_of_padded {t : List Byte} {p k : Nat} (h : firstPad t = some p) (hk : p / 4 ≤ k) :
    unitBytes t k = padBytes p := by
  rw [unitBytes, h]
  exact if_neg (not_lt.2 hk)

/-- R100: three bytes a unit before the first `=`, and then as many as its place says. -/
theorem bytesBefore_of_some {t : List Byte} {p i : Nat} (h : firstPad t = some p) (hi : p / 4 ≤ i / 4) :
    bytesBefore t i = 3 * (p / 4) + padBytes p * (i / 4 - p / 4) := by
  have hfull := sum_unitBytes (t := t) (a := 0) (m := p / 4) (c := 3) fun k hk => by
    rw [unitBytes, h, Nat.zero_add]
    exact if_pos hk
  have hrest := sum_unitBytes (t := t) (a := p / 4) (m := i / 4 - p / 4) fun k _ =>
    unitBytes_of_padded h (Nat.le_add_right _ k)
  simp only [Nat.zero_add] at hfull
  rw [bytesBefore, ← Nat.add_sub_of_le hi, List.range_add, List.map_append, List.map_map, List.sum_append,
    Nat.add_sub_cancel_left, ← hfull, ← hrest]
  rfl

/-- Settles O42: a whole unit has no `=`, so the rest decodes by itself; the tail is one unit, or none. -/
theorem decodeOfEncodeIsIdentity : Obligations.DecodeOfEncodeIsIdentity := by
  intro b
  induction b using encText.induct with
  | case1 x y z t ih =>
    have hpad : firstPad (unit3 x y z) = none := by
      rw [unit3, firstPad_unit, if_neg (sym_ne_padCh _), if_neg (sym_ne_padCh _)]
    have hunit : decText (unit3 x y z) = some [x, y, z] := by
      have hread : readBack (unit3 x y z) = [x, y, z] := by simpa [readBack] using readBack_unit3_append x y z []
      rw [← hread]
      exact decText_unit _ _ (symbolOrPad_sym _) (symbolOrPad_sym _)
    rw [encText]
    exact decText_append hpad hunit ih
  | case2 x y =>
    rw [encText, ← readBack_unit2 x y]
    exact decText_unit _ _ (symbolOrPad_sym _) symbolOrPad_padCh
  | case3 x =>
    rw [encText, ← readBack_unit1 x]
    exact decText_unit _ _ symbolOrPad_padCh symbolOrPad_padCh
  | case4 => rfl

/-- Settles O46: the first `=` stays where it is, so nothing in the further units offends, and each yields what it
says. -/
theorem endMarkerOutlivesUnit : Obligations.EndMarkerOutlivesUnit := by
  intro t u y p ht hpad hu hchars
  obtain ⟨hclean, hunits, rfl⟩ := decText_iff_textRead.1 ht
  obtain ⟨hp, -, -⟩ := firstPad_some hpad
  have hpad' := firstPad_append u hpad
  have hkeep : unitBytes (t ++ u) = unitBytes t := by
    funext k
    rw [unitBytes, unitBytes, hpad, hpad']
  have hclean' (j : Nat) (hj : j < (t ++ u).length) : offends (t ++ u) j = false := by
    by_cases hleft : j < t.length
    · rw [← hclean j hleft, offends, offends, List.getD_append _ _ _ _ hleft, hpad, hpad']
    · obtain ⟨i, rfl⟩ := Nat.exists_eq_add_of_le (not_lt.1 hleft)
      have hi : i < u.length := by simpa using hj
      refine offends_of_symbolOrPad ?_ fun hfirst => ?_
      · rw [getD_append_right_add, List.getD_eq_getElem _ _ hi]
        exact hchars _ (List.getElem_mem hi)
      · have := Option.some.inj (hpad'.symm.trans hfirst)
        omega
  refine ⟨_, decText_iff_textRead.2 ⟨hclean', by rw [List.length_append]; omega,
    (textRead_append hunits fun k _ => congrFun hkeep k).symm⟩, ?_⟩
  rw [List.length_flatMap]
  simp only [length_unitRead]
  exact sum_unitBytes fun k _ => unitBytes_of_padded hpad' (by omega)

/-- Settles O44: three bytes a unit before the first `=` and one or two from it on. -/
theorem decodedLengthFromFirstPad : Obligations.DecodedLengthFromFirstPad := by
  intro t y hy
  obtain ⟨-, hunits, -⟩ := decText_eq_some.1 hy
  rw [length_of_decText hy]
  cases hf : firstPad t with
  | none =>
    rw [bytesBefore_of_none hf]
    refine ⟨fun _ => rfl, nofun, fun _ => ⟨?_, ?_⟩, ?_, ?_⟩ <;> omega
  | some p =>
    obtain ⟨hp, -⟩ := firstPad_some hf
    rw [bytesBefore_of_some hf (Nat.div_le_div_right hp.le)]
    refine ⟨nofun, ?_, fun hlast => ?_, ?_⟩
    · rintro q ⟨⟩
      rfl
    · have hunit := hlast p rfl
      unfold padBytes
      split <;> omega
    · unfold padBytes
      split <;> omega

/-- Settles O45: the padded unit decodes by itself, and its last character or two do not enter its bytes. -/
theorem paddedUnitIgnoresUnusedBits : Obligations.PaddedUnitIgnoresUnusedBits := by
  intro t y a b c x ht hpad hx
  constructor
  · refine decText_append hpad ht ((decText_unit a b symbolOrPad_padCh hx).trans ?_)
    rw [readBack_unit, readUnit, if_pos rfl]
    simp only [charValue_sym, groupBytes_append]
    rfl
  · refine decText_append hpad ht ((decText_unit a b (symbolOrPad_sym c) symbolOrPad_padCh).trans ?_)
    rw [readBack_unit, readUnit, if_neg (sym_ne_padCh c), if_pos rfl]
    simp only [charValue_sym, groupBytes_append]
    rfl

end Sys2Proof.Machine

/-! ## The decoder, one step at a time: O31 to O34, O36

Each statement is one of the step's equations (`decStep_reject`, `decStep_char`, `decStep_flush`, `decStep_close`), with
what the checks answer put in the words of the claims. -/

namespace Sys2Proof.Machine

section DecoderSteps
variable {w : Nat}

/-- R86, R87, R88: what the checks reject, in the words of the claims. -/
theorem checkChar_eq_error {s : State w} (h : CharRejected s) :
    ∃ c, checkChar (readSrc s) s.pos s.endMark = .error c := by
  rw [CharRejected, ← readSrc] at h
  rw [checkChar]
  obtain hws | ⟨hpad, hmark, hpos⟩ | hinvalid := h
  · exact ⟨.whitespaceInInput, by rw [hws]⟩
  · have hplace : padMark s.pos s.endMark = none := by
      rcases hpos with hpos | hpos <;> simp [padMark, hmark, hpos]
    exact ⟨.unexpectedPadCharacter, by rw [hpad, hplace]⟩
  · exact ⟨.invalidSymbol, by rw [hinvalid]⟩

/-- R85, R116: a step that reads a character which fails its check takes the failure exit. -/
theorem stepAt_dec_reject {s : State w} (hs : Running opB64Dec s) (hlt : s.si < s.len) (hc : CharRejected s) :
    ∃ c, stepAt s = .next (takeFail c s) := by
  obtain ⟨hp, hop, hi⟩ := hs
  obtain ⟨c, hc⟩ := checkChar_eq_error hc
  exact ⟨c, by rw [stepAt_engine hi, engineStep_of_dec hp hop, decStep_reject hlt hc]⟩

/-- R90: the flush of a full group, where there is room. -/
theorem decStep_flush_next {s : State w} {v : SymVal} {e : BitVec 2} {bs : List Byte} (hlt : s.si < s.len)
    (hc : checkChar (readSrc s) s.pos s.endMark = .ok (v, e)) (hpos : s.pos = 3#2)
    (hbs : flushDec (shiftIn s.acc v) e = bs) (hcap : s.di.toNat + bs.length ≤ s.bufs.dcap)
    (hw : s.di.toNat + bs.length < 2 ^ w) :
    decStep s =
      .next { s with
        mem := s.mem.writeBytes (s.bufs.dst + s.di.toNat) bs
        di := s.di + BitVec.ofNat w bs.length
        acc := 0#24, pos := 0#2, endMark := e, si := s.si + 1 } := by
  rw [decStep_flush hlt hc hpos, hbs, emitAll_next bs { s with si := s.si + 1, endMark := e } hcap hw,
    andThen_next]

/-- R90, R54: the bytes of a flush as slices of the group. -/
theorem flushDec_slices (a : Group) (e : BitVec 2) :
    flushDec a e = if e = 0#2 then [a.extractLsb' 16 8, a.extractLsb' 8 8, a.extractLsb' 0 8]
      else if e = 1#2 then [a.extractLsb' 16 8] else [a.extractLsb' 16 8, a.extractLsb' 8 8] := by
  simp only [flushDec, groupByte_eq]
  by_cases h0 : e = 0#2
  · simp [h0]
  · by_cases h1 : e = 1#2 <;> simp [h0, h1]

/-- R86, R94: whitespace offends wherever it stands. -/
theorem exists_offender_of_ws {t : List Byte} {c : Byte} (hc : classify c = .ws) (h : c ∈ t) :
    firstOffender t ≠ none := by
  obtain ⟨j, hj, rfl⟩ := List.mem_iff_getElem.1 h
  intro hnone
  have hclean := firstOffender_none.1 hnone j hj
  rw [offends, List.getD_eq_getElem _ _ hj, hc] at hclean
  cases hclean

end DecoderSteps

/-- Settles O31: the checks reject the character, and the failure exit does the rest. -/
theorem decoderRejectsCharacter : Obligations.DecoderRejectsCharacter := by
  intro w s hs hlt hrej
  obtain ⟨c, hstep⟩ := stepAt_dec_reject hs hlt hrej
  exact ⟨_, hstep, failedFrom_takeFail c s⟩

/-- Settles O32: the decoder's character step short of a full group. -/
theorem decoderAcceptsCharacter : Obligations.DecoderAcceptsCharacter := by
  rintro w s v e ⟨hp, hop, hi⟩ hlt hpos hacc
  rw [stepAt_engine hi, engineStep_of_dec hp hop, decStep_char hlt (checkChar_eq_ok.2 hacc) hpos]
  rfl

/-- Settles O33: the flush with room, its bytes read as slices of the group. -/
theorem decoderFlushWritesBytes : Obligations.DecoderFlushWritesBytes := by
  rintro w s v e g bs hs ⟨hp, hop, hi⟩ hlt hpos hacc rfl rfl hcap
  have hflush := flushDec_slices (shiftIn s.acc v) e
  obtain ⟨-, hw⟩ := hs.dec_room hp hop hlt hpos (shiftIn s.acc v) e
  rw [hflush] at hw
  rw [stepAt_engine hi, engineStep_of_dec hp hop]
  exact decStep_flush_next hlt (checkChar_eq_ok.2 hacc) hpos hflush hcap hw

/-- Settles O34: the closing step asks `POS` alone, which counts the source's characters modulo 4. -/
theorem decoderClosingStep : Obligations.DecoderClosingStep := by
  rintro w s ⟨hp, hop, hi⟩ hend
  rw [stepAt_engine hi, engineStep_of_dec hp hop, decStep_close hend]
  refine ⟨fun hpos => by rw [if_neg (not_not.2 hpos)]; rfl, fun hpos => ?_, fun hs => ?_⟩
  · rw [if_pos hpos]
    exact ⟨_, rfl, rfl, rfl, rfl⟩
  · obtain ⟨-, -, -, -, hdec⟩ := runInv_iff.1 (hs.runInv hp)
    obtain ⟨-, hpos, -⟩ := hdec hop
    rw [hend] at hpos
    rw [← hpos]
    exact BitVec.toNat_eq

/-- Settles O36: whitespace is rejected by the checks at once, and offends in a text wherever it stands. -/
theorem whitespaceIsFatalEverywhere : Obligations.WhitespaceIsFatalEverywhere := by
  have hws {c : Byte} (h : c ∈ [0x20#8, 0x09#8, 0x0A#8, 0x0D#8]) : classify c = .ws :=
    classify_eq_ws.2 (by simp at h; tauto)
  constructor
  · intro w s hs hlt hread
    obtain ⟨c, hstep⟩ := stepAt_dec_reject hs hlt (.inl (hws hread))
    exact ⟨_, hstep, rfl, rfl, rfl⟩
  · intro t c hc hmem
    exact decText_eq_none.2 (.inl (exists_offender_of_ws (hws hc) hmem))

end Sys2Proof.Machine

/-! ## The decoder's operation as a whole: O37, O38, O41, O43

After `k` accepted characters the bytes of the units completed stand in the destination and the values of the unit in
progress in the group (`DecAt`). An accepted character goes from there to `k + 1`; the first offender, or the end of the
text, ends the operation there. -/

namespace Sys2Proof.Machine

section Decoder
variable {w : Nat}

/-! ### What the text says of the group and of the flush -/

/-- R89, R90: the values of the unit in progress when the first `i` characters of a text have been accepted. -/
def accBefore (t : List Byte) : Nat → Group
  | 0 => 0#24
  | i + 1 => if i % 4 = 3 then 0#24 else shiftIn (accBefore t i) (charValue (t.getD i 0#8))

theorem accBefore_succ_of_last (t : List Byte) {i : Nat} (h : i % 4 = 3) : accBefore t (i + 1) = 0#24 := if_pos h

theorem accBefore_succ_of_not_last (t : List Byte) {i : Nat} (h : i % 4 ≠ 3) :
    accBefore t (i + 1) = shiftIn (accBefore t i) (charValue (t.getD i 0#8)) := if_neg h

/-- R90: between two units the group is empty. -/
theorem accBefore_of_units (t : List Byte) {i : Nat} (h : i % 4 = 0) : accBefore t i = 0#24 := by
  cases i with
  | zero => rfl
  | succ i => exact accBefore_succ_of_last t (by omega)

/-- R89, R94: the fourth character of a unit completes its group. -/
theorem shiftIn_accBefore (t : List Byte) {i : Nat} (h : i % 4 = 3) :
    shiftIn (accBefore t i) (charValue (t.getD i 0#8)) = unitGroup t (i / 4) := by
  obtain ⟨k, rfl⟩ : ∃ k, i = 4 * k + 3 := ⟨i / 4, by omega⟩
  rw [accBefore_succ_of_not_last t (by omega), accBefore_succ_of_not_last t (by omega),
    accBefore_succ_of_not_last t (by omega), accBefore_of_units t (by omega), shiftIn_four,
    show (4 * k + 3) / 4 = k by omega]
  rfl

/-- R87, R88: an accepted character enters the group with the value that the text gives it. -/
theorem checkChar_value {c : Byte} {pos e e' : BitVec 2} {v : SymVal} (h : checkChar c pos e = .ok (v, e')) :
    v = charValue c := by
  rw [checkChar] at h
  rw [charValue]
  cases hc : classify c with
  | ws | invalid => simp [hc] at h
  | symbol x =>
    rw [hc] at h
    cases h
    rfl
  | pad =>
    rw [hc] at h
    cases hmark : padMark pos e with
    | none => simp [hmark] at h
    | some m =>
      simp only [hmark] at h
      cases h
      rfl

/-- R85, R94: the decoder's checks accept a character that does not offend. -/
theorem checkChar_of_clean {t : List Byte} {i : Nat} {pos : BitVec 2} (hi : i < t.length) (hpos : pos.toNat = i % 4)
    (hclean : offends t i = false) :
    checkChar (t.getD i 0#8) pos (markBefore t i) = .ok (charValue (t.getD i 0#8), markBefore t (i + 1)) := by
  obtain ⟨herror, hok⟩ := checkChar_markBefore hi hpos
  cases hc : checkChar (t.getD i 0#8) pos (markBefore t i) with
  | error c => simp [herror c hc] at hclean
  | ok ve =>
    obtain ⟨v, e⟩ := ve
    obtain ⟨-, rfl⟩ := hok v e hc
    rw [checkChar_value hc]

/-- R85, R94: the decoder's checks reject an offender. -/
theorem checkChar_of_offender {t : List Byte} {i : Nat} {pos : BitVec 2} (hi : i < t.length)
    (hpos : pos.toNat = i % 4) (hoff : offends t i = true) :
    ∃ c, checkChar (t.getD i 0#8) pos (markBefore t i) = .error c := by
  obtain ⟨-, hok⟩ := checkChar_markBefore hi hpos
  cases hc : checkChar (t.getD i 0#8) pos (markBefore t i) with
  | error c => exact ⟨c, rfl⟩
  | ok ve => simp [(hok ve.1 ve.2 hc).1] at hoff

/-- R17: the end marker never takes the value 3. -/
theorem markBefore_ne_three (t : List Byte) (i : Nat) : markBefore t i ≠ 3#2 := by
  rw [markBefore]
  split
  · decide
  · split_ifs <;> decide

/-- R90, R94: the flush of a unit writes what the text says the unit yields. -/
theorem flushDec_unitGroup (t : List Byte) {i : Nat} (h : i % 4 = 3) :
    flushDec (unitGroup t (i / 4)) (markBefore t (i + 1)) = unitRead t (i / 4) := by
  have hprefix : flushDec (unitGroup t (i / 4)) (markBefore t (i + 1)) <+: groupBytes (unitGroup t (i / 4)) := by
    rw [flushDec_eq_take _ (markBefore_ne_three t _)]
    exact List.take_prefix _ _
  rw [List.prefix_iff_eq_take.1 hprefix, flushDec_markBefore_length t h]
  rfl

theorem bytesBefore_le_succ (t : List Byte) (i : Nat) : bytesBefore t i ≤ bytesBefore t (i + 1) := by
  by_cases h : i % 4 = 3
  · rw [bytesBefore_succ_of_last t h]
    exact Nat.le_add_right _ _
  · rw [bytesBefore_succ_of_not_last t h]

/-- R99: no part of a text yields more than `B64DECLEN` of its length. -/
theorem bytesBefore_le_decodedLength (t : List Byte) {i n : Nat} (h : i ≤ n) : bytesBefore t i ≤ decodedLength n :=
  (bytesBefore_le t i).trans (by rw [decodedLength]; omega)

/-- R117: the characters before the index where a text fails do not offend, and there stands an offender or the end of
a text whose units are not whole. -/
theorem failCause_found {t : List Byte} {c : FailCause} {i : Nat} (h : failCause t = some (c, i)) :
    (∀ j < i, offends t j = false) ∧
      (i < t.length ∧ offends t i = true ∨ i = t.length ∧ t.length % 4 ≠ 0) := by
  obtain hfirst | ⟨hnone, rfl, hpart⟩ := failCause_eq_some h
  · obtain ⟨hi, hoff, hbefore⟩ := firstOffender_some.1 hfirst
    exact ⟨hbefore, .inl ⟨hi, hoff⟩⟩
  · exact ⟨firstOffender_none.1 hnone, .inr ⟨rfl, hpart⟩⟩

theorem failCause_le {t : List Byte} {c : FailCause} {i : Nat} (h : failCause t = some (c, i)) : i ≤ t.length := by
  obtain ⟨-, ⟨hi, -⟩ | ⟨rfl, -⟩⟩ := failCause_found h
  · exact hi.le
  · exact le_rfl

/-! ### The operation -/

/-- Where the decoder's operation that began in `s₀` with the text `t` stands in `s`: the first `SI` characters are
accepted, the units they complete are written, and the values of the unit in progress are in the group. -/
structure DecAt (s₀ : State w) (t : List Byte) (s : State w) : Prop where
  run : RunsFrom s₀ s
  phase : s.phase = .run
  regs : DecRegs s
  scanned : Scanned t s
  acc : s.acc = accBefore t s.si.toNat
  mem : s.mem = s₀.mem.writeBytes s₀.bufs.dst (textRead t s.si.toNat)

/-- R23: the start. -/
theorem decAt_start (n : Nat) (s : State w) (t : List Byte) :
    DecAt (startTransition opB64Dec n s) t (startTransition opB64Dec n s) :=
  have ⟨run, regs, scanned⟩ := (decReached_start n s t).of_run rfl
  ⟨run, rfl, regs, scanned, by simp [accBefore], by simp [textRead, Memory.writeBytes]⟩

section Operation
variable {s₀ s : State w} {t : List Byte}

theorem DecAt.pos_eq (h : DecAt s₀ t s) : s.pos.toNat = s.si.toNat % 4 := by
  obtain ⟨-, hpos, -⟩ := h.regs
  exact hpos

theorem DecAt.pos_eq_three (h : DecAt s₀ t s) : s.pos = 3#2 ↔ s.si.toNat % 4 = 3 := by
  rw [← h.pos_eq]
  exact BitVec.toNat_eq

/-- R91: the last unit is complete when `POS` is 0. -/
theorem DecAt.pos_eq_zero (h : DecAt s₀ t s) : s.pos = 0#2 ↔ s.si.toNat % 4 = 0 := by
  rw [← h.pos_eq]
  exact BitVec.toNat_eq

variable (hadm : Admissible s₀) (ht : t = sourceOf s₀ s₀.len.toNat)
include ht

theorem DecAt.length_eq (h : DecAt s₀ t s) : t.length = s.len.toNat := by
  rw [ht, sourceOf, Memory.length_readBytes, h.run.command.len]

include hadm

/-- R85: what the checks are made of. -/
theorem DecAt.checkChar_eq (h : DecAt s₀ t s) (hlt : s.si < s.len) :
    checkChar (readSrc s) s.pos s.endMark = checkChar (t.getD s.si.toNat 0#8) s.pos (markBefore t s.si.toNat) := by
  rw [h.run.readSrc hadm hlt, ← ht, h.scanned.mark]

/-- R93, R116, R117: an offender, or the end of a text whose units are not whole, ends the operation as a failure. -/
theorem DecAt.fails (h : DecAt s₀ t s)
    (hfound : s.si.toNat < t.length ∧ offends t s.si.toNat = true ∨ s.si.toNat = t.length ∧ t.length % 4 ≠ 0) :
    ∃ c, decStep s = .next (takeFail c s) := by
  have hlength := h.length_eq ht
  obtain ⟨hi, hoff⟩ | ⟨hi, hpart⟩ := hfound
  · have hlt : s.si < s.len := show s.si.toNat < s.len.toNat from hlength ▸ hi
    obtain ⟨c, hc⟩ := checkChar_of_offender hi h.pos_eq hoff
    exact ⟨c, decStep_reject hlt ((h.checkChar_eq hadm ht hlt).trans hc)⟩
  · have hend : s.si = s.len := BitVec.eq_of_toNat_eq (hi.trans hlength)
    have hpos : s.pos ≠ 0#2 := fun h0 => hpart (hi ▸ h.pos_eq_zero.1 h0)
    exact ⟨_, by rw [decStep_close hend, if_pos hpos]⟩

omit hadm in
/-- R91, R92: the end of whole units ends it as a success. -/
theorem DecAt.succeeds (h : DecAt s₀ t s) (hi : s.si.toNat = t.length) (hunits : t.length % 4 = 0) :
    decStep s = .next (takeDone s.di s) := by
  have hend : s.si = s.len := BitVec.eq_of_toNat_eq (hi.trans (h.length_eq ht))
  have hpos : s.pos = 0#2 := h.pos_eq_zero.2 (hi ▸ hunits)
  rw [decStep_close hend, if_neg (not_not.2 hpos)]

variable (hop : s₀.op = opB64Dec)
include hop

/-- R85 to R90: the registers' part of a step within the operation. -/
theorem DecAt.of_step {u : State w} (h : DecAt s₀ t s) (hstep : decStep s = .next u) (hp : u.phase = .run)
    (hacc : u.acc = accBefore t u.si.toNat)
    (hmem : u.mem = s₀.mem.writeBytes s₀.bufs.dst (textRead t u.si.toNat)) : DecAt s₀ t u :=
  have ⟨run, regs, scanned⟩ :=
    (decStep_reached hadm hop ht h.phase (.running h.run h.phase h.regs h.scanned) hstep).of_run hp
  ⟨run, hp, regs, scanned, hacc, hmem⟩

/-- R89, R90: one character that does not offend, with room for the unit it may complete. -/
theorem DecAt.step (h : DecAt s₀ t s) (hi : s.si.toNat < t.length) (hclean : offends t s.si.toNat = false)
    (hcap : bytesBefore t (s.si.toNat + 1) ≤ s₀.bufs.dcap) :
    ∃ u, decStep s = .next u ∧ u.si.toNat = s.si.toNat + 1 ∧ DecAt s₀ t u := by
  have hlt : s.si < s.len := show s.si.toNat < s.len.toNat from h.length_eq ht ▸ hi
  have hsi := (toNat_si_succ hlt).1
  have hcheck := (h.checkChar_eq hadm ht hlt).trans (checkChar_of_clean hi h.pos_eq hclean)
  by_cases hpos : s.pos = 3#2
  · have hlast := h.pos_eq_three.1 hpos
    have hflush : flushDec (shiftIn s.acc (charValue (t.getD s.si.toNat 0#8))) (markBefore t (s.si.toNat + 1)) =
        unitRead t (s.si.toNat / 4) := by
      rw [h.acc, shiftIn_accBefore t hlast, flushDec_unitGroup t hlast]
    have hroom : s.di.toNat + (unitRead t (s.si.toNat / 4)).length ≤ s.bufs.dcap := by
      rw [h.scanned.di, length_unitRead, ← bytesBefore_succ_of_last t hlast, h.run.command.bufs]
      exact hcap
    have hw : s.di.toNat + (unitRead t (s.si.toNat / 4)).length < 2 ^ w := by
      obtain ⟨-, hest, -⟩ := hadm
      rw [hop, opB64Dec_eq, estimate_dec, ← h.run.command.len] at hest
      rw [← hflush]
      exact (h.regs.flush_lt hest hlt hpos _ _).trans_le two_pow_pred_le
    have hstep := decStep_flush_next hlt hcheck hpos hflush hroom hw
    refine ⟨_, hstep, hsi, h.of_step hadm ht hop hstep h.phase ?_ ?_⟩
    · rw [hsi, accBefore_succ_of_last t hlast]
    · rw [hsi, textRead_succ_of_last t hlast, Memory.writeBytes_append, ← h.mem, length_textRead, ← h.scanned.di,
        h.run.command.bufs]
  · have hlast := mt h.pos_eq_three.2 hpos
    have hstep := decStep_char hlt hcheck hpos
    refine ⟨_, hstep, hsi, h.of_step hadm ht hop hstep h.phase ?_ ?_⟩
    · rw [hsi, accBefore_succ_of_not_last t hlast, h.acc]
    · rw [hsi, textRead_succ_of_not_last t hlast]
      exact h.mem

end Operation

/-- One step more. -/
theorem runToDone_succ_of_next {f : State w → Result w} {k : Nat} {s u v : State w} (hrun : runToDone f k s = .next u)
    (hp : u.phase = .run) (hstep : f u = .next v) : runToDone f (k + 1) s = .next v := by
  rw [runToDone_add, hrun, andThen_next, runToDone_run hp, hstep, andThen_next, runToDone_zero]

theorem length_sourceOf (s : State w) (n : Nat) : (sourceOf s n).length = n := Memory.length_readBytes _ _ _

/-- R84: where `B64DEC` may start, its first `k` steps accept `k` characters, if none of them offends and the units they
complete fit. -/
theorem decAt_of_canStart {n : Nat} {s : State w} (hc : CanStart opB64Dec n s) {k : Nat} (hk : k ≤ n)
    (hclean : ∀ j < k, offends (sourceOf s n) j = false) (hcap : bytesBefore (sourceOf s n) k ≤ s.bufs.dcap) :
    ∃ u, runToDone decStep k (startTransition opB64Dec n s) = .next u ∧ u.si.toNat = k ∧
      DecAt (startTransition opB64Dec n s) (sourceOf s n) u := by
  obtain ⟨hadm, hlen⟩ := admissible_startTransition rfl hc
  induction k with
  | zero => exact ⟨_, rfl, by simp, decAt_start n s _⟩
  | succ k ih =>
    obtain ⟨u, hrun, rfl, hu⟩ :=
      ih (by omega) (fun j hj => hclean j (by omega)) ((bytesBefore_le_succ _ _).trans hcap)
    have hi : u.si.toNat < (sourceOf s n).length := by rwa [length_sourceOf]
    obtain ⟨v, hstep, hsi, hv⟩ := hu.step hadm (by rw [hlen]; rfl) rfl hi (hclean _ (by omega)) hcap
    exact ⟨v, runToDone_succ_of_next hrun hu.phase hstep, hsi, hv⟩

/-- R84, R117: a rejected text ends the operation in the step after the characters before its first offender. -/
theorem runToDone_dec_fails {n i : Nat} {s : State w} {c : FailCause} (hc : CanStart opB64Dec n s)
    (hcause : failCause (sourceOf s n) = some (c, i)) (hcap : bytesBefore (sourceOf s n) i ≤ s.bufs.dcap) :
    ∃ r d, DecAt (startTransition opB64Dec n s) (sourceOf s n) r ∧ r.si.toNat = i ∧
      runToDone decStep (i + 1) (startTransition opB64Dec n s) = .next (takeFail d r) := by
  obtain ⟨hadm, hlen⟩ := admissible_startTransition rfl hc
  obtain ⟨hclean, hfound⟩ := failCause_found hcause
  have hi : i ≤ n := (failCause_le hcause).trans_eq (length_sourceOf s n)
  obtain ⟨r, hrun, rfl, hr⟩ := decAt_of_canStart hc hi hclean hcap
  obtain ⟨d, hstep⟩ := hr.fails hadm (by rw [hlen]; rfl) hfound
  exact ⟨r, d, hr, rfl, runToDone_succ_of_next hrun hr.phase hstep⟩

/-- R84: an accepted text ends it in the step after its characters. -/
theorem runToDone_dec_succeeds {n : Nat} {s : State w} {y : List Byte} (hc : CanStart opB64Dec n s)
    (hy : decText (sourceOf s n) = some y) (hcap : y.length ≤ s.bufs.dcap) :
    ∃ r, DecAt (startTransition opB64Dec n s) (sourceOf s n) r ∧ r.si.toNat = n ∧
      runToDone decStep (n + 1) (startTransition opB64Dec n s) = .next (takeDone r.di r) := by
  obtain ⟨-, hlen⟩ := admissible_startTransition rfl hc
  obtain ⟨hclean, hunits, -⟩ := decText_eq_some.1 hy
  have hn := length_sourceOf s n
  rw [length_of_decText hy, hn] at hcap
  obtain ⟨r, hrun, hsi, hr⟩ := decAt_of_canStart hc le_rfl (by rwa [hn] at hclean) hcap
  have hstep := hr.succeeds (by rw [hlen]; rfl) (hsi.trans hn.symm) hunits
  exact ⟨r, hr, hsi, runToDone_succ_of_next hrun hr.phase hstep⟩

/-- R84: an operation that has ended within `LEN + 1` steps is the whole one. -/
theorem execAt_dec_of_ended {n k : Nat} {s t : State w} (hc : CanStart opB64Dec n s) (hk : k ≤ n + 1)
    (hrun : runToDone decStep k (startTransition opB64Dec n s) = .next t) (hp : t.phase = .done) :
    execAt (.b64dec n) s = .next t :=
  calc execAt (.b64dec n) s
      = runToDone decStep (n + 1) (startTransition opB64Dec n s) := andThen_beginOp hc _
    _ = runToDone decStep (n + 1 - k) t := by rw [← Nat.add_sub_of_le hk, runToDone_add, hrun, andThen_next,
          Nat.add_sub_cancel_left]
    _ = .next t := runToDone_stop (by simp [hp])

/-- R18: an index within the length as a register holds it. -/
theorem eq_ofNat_of_admitted {x : Word w} {m : Nat} (hm : m < 2 ^ (w - 1)) (h : x.toNat = m) : x = BitVec.ofNat w m :=
  BitVec.eq_of_toNat_eq (h.trans (toNat_ofNat_of_admitted hm).symm)

/-- R92: the outcome of an accepted text, register by register. -/
theorem decoderOutcome_of_canStart {n : Nat} {s : State w} {y : List Byte} (hc : CanStart opB64Dec n s)
    (hy : decText (sourceOf s n) = some y) (hcap : y.length ≤ s.bufs.dcap) :
    ∃ t, execAt (.b64dec n) s = .next t ∧ DecoderOutcome n y s t ∧ y.length ≤ decodedLength n := by
  obtain ⟨r, hr, hsi, hrun⟩ := runToDone_dec_succeeds hc hy hcap
  have hn := length_sourceOf s n
  obtain ⟨-, hunits, htext⟩ := decText_iff_textRead.1 hy
  have hlen := length_of_decText hy
  rw [hn] at hunits htext hlen
  have hbound : y.length ≤ decodedLength n := hlen.trans_le (bytesBefore_le_decodedLength _ le_rfl)
  refine ⟨takeDone r.di r, execAt_dec_of_ended hc le_rfl hrun rfl, ⟨?_, ?_, ?_⟩, hbound⟩
  · obtain ⟨-, hlt, hest, -⟩ := hc
    have hdi : r.di = BitVec.ofNat w y.length :=
      eq_ofNat_of_admitted (hbound.trans_lt hest) (by rw [hr.scanned.di, hsi, hlen])
    have hacc : r.acc = 0#24 := by rw [hr.acc, hsi, accBefore_of_units _ hunits]
    have hpos : r.pos = 0#2 := hr.pos_eq_zero.2 (by rw [hsi, hunits])
    have hmem : r.mem = s.mem.writeBytes s.bufs.dst y := by rw [hr.mem, hsi, ← htext]; rfl
    have hupdate := (hr.run.takeDone r.di).command.eq_update
    rw [takeDone_fresh, hr.run.fresh, takeDone_phase, takeDone_fail, takeDone_result, takeDone_acc, takeDone_pos,
      takeDone_si, takeDone_di, takeDone_mem, hdi, hacc, hpos, hmem, eq_ofNat_of_admitted hlt hsi] at hupdate
    rw [hdi]
    exact hupdate
  · rw [takeDone_result, hr.scanned.di, hsi, hlen]
  · rw [takeDone_endMark, hr.scanned.mark, hsi]
    cases hf : firstPad (sourceOf s n) with
    | none => exact markBefore_of_none hf n
    | some p =>
      obtain ⟨hp, -⟩ := firstPad_some hf
      rw [markBefore_of_some hf, if_pos (hn ▸ hp)]

/-- R93, R116: the outcome of a rejected text, register by register. -/
theorem decoderFailure_of_canStart {n i : Nat} {s : State w} {c : FailCause} (hc : CanStart opB64Dec n s)
    (hcause : failCause (sourceOf s n) = some (c, i)) (hcap : bytesBefore (sourceOf s n) i ≤ s.bufs.dcap) :
    ∃ t, execAt (.b64dec n) s = .next t ∧ DecoderFailure n i s t := by
  obtain ⟨r, d, hr, hsi, hrun⟩ := runToDone_dec_fails hc hcause hcap
  have hi : i ≤ n := (failCause_le hcause).trans_eq (length_sourceOf s n)
  obtain ⟨-, hfresh, -, hinside⟩ := failedFrom_takeFail d r
  rw [hr.run.command.bufs, hr.run.fresh] at hfresh hinside
  refine ⟨takeFail d r, execAt_dec_of_ended hc (by omega) hrun rfl, ?_,
    fun a => hr.run.takeFail_read_outside d, hinside⟩
  obtain ⟨-, hn, -, -⟩ := hc
  have hcmd : SameCommand (startTransition opB64Dec n s) (takeFail d r) :=
    ⟨hr.run.command.op, hr.run.command.len, hr.run.command.bufs, hr.run.command.inbox⟩
  have hupdate := hcmd.eq_update
  rw [hfresh, takeFail_phase, takeFail_fail, takeFail_result, takeFail_si,
    eq_ofNat_of_admitted (by omega) hsi] at hupdate
  exact hupdate

/-- R84: the machine's own steps are the operation's. -/
theorem runSteps_dec_eq_runToDone {n : Nat} {s : State w} (hi : s.inbox = []) (k : Nat) :
    runSteps k (startTransition opB64Dec n s) = runToDone decStep k (startTransition opB64Dec n s) :=
  (runToDone_eq_runSteps (s := startTransition opB64Dec n s) (fun _ => engineStep_of_dec)
    (fun _ _ => decStep_sameCommand) k rfl hi).symm

/-- R99: wherever the operation stands, ended or not, `DI` counts at most three bytes for each unit read. -/
theorem DecReached.di_le {s₀ s : State w} {t : List Byte} (h : DecReached s₀ t s) :
    s.di.toNat ≤ 3 * (s.si.toNat / 4) := by
  cases h with
  | running _ _ _ scanned => exact scanned.di.trans_le (bytesBefore_le t _)
  | succeeded _ scanned => exact scanned.di.trans_le (bytesBefore_le t _)
  | failed r failure =>
    obtain ⟨-, scanned, ⟨c, rfl⟩, -⟩ := failure
    exact scanned.di.trans_le (bytesBefore_le t _)

/-- R99, R134: with the capacity duty met the decoder's steps, however many, do not stop the machine. -/
theorem runToDone_dec_next {s : State w} (hs : Invariant s) (hop : s.op = opB64Dec)
    (hcap : estimate s.op s.len.toNat ≤ s.bufs.dcap) (k : Nat) : ∃ u, runToDone decStep k s = .next u := by
  induction k generalizing s with
  | zero => exact ⟨s, rfl⟩
  | succ k ih =>
    by_cases hp : s.phase = .run
    · obtain ⟨t, hstep⟩ := hs.decStep_next hp hop hcap
      obtain ⟨ht, htop⟩ := decStep_keeps hs hp hop hstep
      have hcmd := decStep_sameCommand hstep
      rw [runToDone_run hp, hstep, andThen_next]
      exact ih ht htop (by rwa [hcmd.op, hcmd.len, hcmd.bufs])
    · exact ⟨s, runToDone_stop hp⟩

end Decoder

/-- Settles O37: the step after the characters is `done(DI)`, at every width, and `exec` is `execAt` at the default
one. -/
theorem decoderSucceeds : Obligations.DecoderSucceeds := by
  refine ⟨fun n s y hc hy hcap => ?_, fun w n s y => decoderOutcome_of_canStart⟩
  rw [exec_eq_execAt]
  exact decoderOutcome_of_canStart hc hy hcap

/-- Settles O38: the step after the clean characters is the failure exit, at every width, and `exec` is `execAt` at the
default one. -/
theorem decoderFails : Obligations.DecoderFails := by
  refine ⟨fun n s c i hc hcause hcap => ?_, fun w n s c i => decoderFailure_of_canStart⟩
  rw [exec_eq_execAt]
  exact decoderFailure_of_canStart hc hcause hcap

/-- Settles O41: the characters before the first offender are accepted one a step, and the step after them ends the
operation. -/
theorem decoderStopsAtFirstOffender : Obligations.DecoderStopsAtFirstOffender := by
  intro w n s t hi hcap hstart
  obtain ⟨hc, rfl⟩ := beginOp_eq_next hstart
  have hroom {k : Nat} (hk : k ≤ n) : bytesBefore (sourceOf s n) k ≤ s.bufs.dcap :=
    (bytesBefore_le_decodedLength _ hk).trans hcap
  have hrunning {k : Nat} (hk : k ≤ n) (hclean : ∀ j < k, offends (sourceOf s n) j = false) :
      ∃ u, runSteps k (startTransition opB64Dec n s) = .next u ∧ u.phase = .run ∧ u.si.toNat = k := by
    obtain ⟨u, hrun, hsi, hu⟩ := decAt_of_canStart hc hk hclean (hroom hk)
    exact ⟨u, (runSteps_dec_eq_runToDone hi k).trans hrun, hu.phase, hsi⟩
  constructor
  · intro c i hcause
    obtain ⟨hclean, -⟩ := failCause_found hcause
    have hle : i ≤ n := (failCause_le hcause).trans_eq (length_sourceOf s n)
    obtain ⟨r, d, -, -, hrun⟩ := runToDone_dec_fails hc hcause (hroom hle)
    exact ⟨fun k hk => hrunning (hk.trans hle) fun j hj => hclean j (hj.trans_le hk),
      _, (runSteps_dec_eq_runToDone hi _).trans hrun, rfl, rfl⟩
  · intro y hy
    obtain ⟨hclean, -, -⟩ := decText_eq_some.1 hy
    rw [length_sourceOf] at hclean
    have hlen := length_of_decText hy
    rw [length_sourceOf] at hlen
    obtain ⟨r, -, -, hrun⟩ := runToDone_dec_succeeds hc hy (hlen.trans_le (hroom le_rfl))
    exact ⟨fun k hk => hrunning hk fun j hj => hclean j (hj.trans_le hk),
      _, (runSteps_dec_eq_runToDone hi _).trans hrun, rfl, rfl⟩

/-- Settles O43: every state of the operation counts the bytes of the units it has read, and with the capacity duty met
each step has room. -/
theorem decodedTextWithinBound : Obligations.DecodedTextWithinBound := by
  constructor
  · intro t y hy
    obtain ⟨-, hunits, -⟩ := decText_eq_some.1 hy
    exact ⟨(length_of_decText hy).trans_le (bytesBefore_le_decodedLength t le_rfl), hunits⟩
  · intro w n k s t hs hi hstart
    obtain ⟨hc, rfl⟩ := beginOp_eq_next hstart
    obtain ⟨hadm, hlen⟩ := admissible_startTransition rfl hc
    rw [runSteps_dec_eq_runToDone hi]
    constructor
    · intro u hu
      exact (runToDone_induct (fun _ _ => decStep_reached hadm rfl rfl) (decReached_start n s _) hu).di_le
    · intro hcap
      exact runToDone_dec_next (hs.startTransition (.inr rfl) hc) rfl (by rw [hlen]; exact hcap) k

end Sys2Proof.Machine

/-! ## The size estimators: O18, O12, O13, O15

A meaning refuses only at its start (`execAt_eq_refused`), and where an estimator may start it completes with the value
of its formula (`execAt_estimator_completes`); the statements at the default width are those at every width, read
there. -/

namespace Sys2Proof.Machine

section Estimators
variable {w : Nat}

/-! ### The two formulas -/

theorem four_dvd_encodedLength (n : Nat) : 4 ∣ encodedLength n := Nat.dvd_mul_left 4 _

theorem encodedLength_eq_zero {n : Nat} : encodedLength n = 0 ↔ n = 0 := by
  unfold encodedLength
  omega

theorem encodedLength_mono : Monotone encodedLength := by
  intro m n h
  unfold encodedLength
  gcongr

/-- R105: three bytes back for every unit of four characters, the last one included. -/
theorem decodedLength_encodedLength (n : Nat) : decodedLength (encodedLength n) = 3 * ((n + 2) / 3) := by
  unfold decodedLength encodedLength
  omega

/-! ### Refusals -/

theorem encLenStep_ne_refused (s : State w) (r : Refusal) : encLenStep s ≠ .refused r := by simp [encLenStep]

theorem decLenStep_ne_refused (s : State w) (r : Refusal) : decLenStep s ≠ .refused r := by simp [decLenStep]

/-- R126: whichever the command, its start is the only thing that refuses it. -/
theorem execAt_eq_refused (i : Instr) (s : State w) (r : Refusal) :
    execAt i s = .refused r ↔ startRefusal (opOf i) i.lenOf s = some r := by
  cases i with
  | b64enclen n => exact andThen_beginOp_eq_refused encLenStep_ne_refused _ _ _ _
  | b64declen n => exact andThen_beginOp_eq_refused decLenStep_ne_refused _ _ _ _
  | b64enc n => exact andThen_beginOp_eq_refused (runToDone_ne_refused encStep_ne_refused _) _ _ _ _
  | b64dec n => exact andThen_beginOp_eq_refused (runToDone_ne_refused decStep_ne_refused _) _ _ _ _

/-- R108: the admission bound, failed by the length or by its estimator's value. -/
theorem admitted_eq_false {op : BitVec 2} {n : Nat} :
    admitted w op n = false ↔ 2 ^ (w - 1) ≤ n ∨ 2 ^ (w - 1) ≤ estimate op n := by
  rw [admitted, decide_eq_false_iff_not, not_and_or, not_lt, not_lt]

/-- R126: on a block that is not running the length is tested first. -/
theorem startRefusal_eq_lengthBound {op : BitVec 2} {n : Nat} {s : State w} (hp : s.phase ≠ .run) :
    startRefusal op n s = some .lengthBound ↔ admitted w op n = false := by
  have hfree : s.busy = false := by simpa [State.busy] using hp
  rw [startRefusal, hfree]
  cases admitted w op n with
  | false => simp
  | true => cases isTransform op && s.bufs.overlap n <;> simp

/-- R108: which commands a block that is not running refuses for their length. -/
theorem execAt_eq_lengthBound {s : State w} (hp : s.phase ≠ .run) (i : Instr) :
    execAt i s = .refused .lengthBound ↔ 2 ^ (w - 1) ≤ i.lenOf ∨ 2 ^ (w - 1) ≤ estimate (opOf i) i.lenOf := by
  rw [execAt_eq_refused, startRefusal_eq_lengthBound hp, admitted_eq_false]

/-- R108: the lengths whose encoded length the default width does not admit. -/
theorem beyond_encodedLength_bound {n : Nat} : 1610612733 < n ↔ 2 ^ 31 ≤ n ∨ 2 ^ 31 ≤ encodedLength n := by
  unfold encodedLength
  omega

/-- R108: the decoded length never exceeds the length, so the length alone decides. -/
theorem beyond_decodedLength_bound {n : Nat} : 2147483647 < n ↔ 2 ^ 31 ≤ n ∨ 2 ^ 31 ≤ decodedLength n := by
  have := decodedLength_le n
  omega

/-! ### Completion -/

/-- R102, R104, R109: an estimator that may start completes with the value of its formula. -/
theorem execAt_estimator_completes {i : Instr} {s : State w} (hT : isTransform (opOf i) = false)
    (hc : CanStart (opOf i) i.lenOf s) :
    ∃ t, execAt i s = .next t ∧ EstimatorOutcome (opOf i) i.lenOf (estimate (opOf i) i.lenOf) s t := by
  obtain ⟨t, ht⟩ : ∃ t, execAt i s = .next t := by
    cases i with
    | b64enclen n => exact ⟨_, andThen_beginOp hc _⟩
    | b64declen n => exact ⟨_, andThen_beginOp hc _⟩
    | b64enc n => cases hT
    | b64dec n => cases hT
  obtain ⟨rfl, hresult⟩ := execAt_estimator_eq_next hT ht
  exact ⟨_, ht, rfl, hresult⟩

theorem execAt_encLen_completes {n : Nat} {s : State w} (hp : s.phase ≠ .run) (hn : n < 2 ^ (w - 1))
    (hest : encodedLength n < 2 ^ (w - 1)) :
    ∃ t, execAt (.b64enclen n) s = .next t ∧ EstimatorOutcome 0#2 n (encodedLength n) s t :=
  execAt_estimator_completes (i := .b64enclen n) rfl ⟨hp, hn, hest, fun hT => nomatch hT⟩

theorem execAt_decLen_completes {n : Nat} {s : State w} (hp : s.phase ≠ .run) (hn : n < 2 ^ (w - 1)) :
    ∃ t, execAt (.b64declen n) s = .next t ∧ EstimatorOutcome 1#2 n (decodedLength n) s t :=
  execAt_estimator_completes (i := .b64declen n) rfl
    ⟨hp, hn, (decodedLength_le n).trans_lt hn, fun hT => nomatch hT⟩

end Estimators

/-- Settles O18: the length test of the start at every width, and what its bound comes to at the default one. -/
theorem lengthBeyondBoundRefused : Obligations.LengthBeyondBoundRefused := by
  refine ⟨fun w i s hp => execAt_eq_lengthBound hp i, fun n s hp => ?_⟩
  simp only [exec_eq_execAt, execAt_eq_lengthBound hp]
  exact ⟨beyond_encodedLength_bound, beyond_encodedLength_bound, beyond_decodedLength_bound, beyond_decodedLength_bound⟩

/-- Settles O12: completion at every width, and the length of the encoder's text. -/
theorem encodedLengthCompletes : Obligations.EncodedLengthCompletes := by
  refine ⟨fun n s hp hn hest => ?_, fun w n s => execAt_encLen_completes, fun n b hb => hb ▸ length_encText b⟩
  rw [exec_eq_execAt]
  exact execAt_encLen_completes hp hn hest

/-- Settles O13: completion at every width, and the bytes of an accepted text counted by its units. -/
theorem decodedLengthCompletes : Obligations.DecodedLengthCompletes := by
  refine ⟨fun n s hp hn => ?_, fun w n s => execAt_decLen_completes, fun n t y ht hy => ?_⟩
  · rw [exec_eq_execAt]
    exact execAt_decLen_completes hp hn
  · exact (length_of_decText hy).trans_le (bytesBefore_le_decodedLength t ht.le)

/-- Settles O15: the laws of the composition are those of rounding up to a multiple of 3. -/
theorem estimatorLaws : Obligations.EstimatorLaws := by
  intro m n
  rw [decodedLength_encodedLength]
  have hround : n ≤ 3 * ((n + 2) / 3) ∧ (3 * ((n + 2) / 3) = n ↔ n % 3 = 0) := by omega
  exact ⟨Nat.mod_eq_zero_of_dvd (four_dvd_encodedLength n), encodedLength_eq_zero, fun h => encodedLength_mono h, rfl,
    hround⟩

end Sys2Proof.Machine

/-! ## The failure exit, and blocks that share one memory: O56, O35

What a step of the engine does to memory is a function of its own: an edit that stays inside `DST` and decides each
element by that element alone (`LocalEdit`). Which edit it is, and what happens to the registers, depends on memory only
through the source (`EditsDst`). Another block's step therefore changes neither, and two edits inside disjoint
destinations commute. -/

namespace Sys2Proof.Machine

/-! ### Edits of memory -/

/-- `e` changes elements of `D` only, and what it leaves in an element depends on that element alone. -/
structure LocalEdit (D : Nat → Bool) (e : Memory → Memory) : Prop where
  outside : ∀ m a, D a = false → (e m).read a = m.read a
  pointwise : ∀ {m m' : Memory} {a : Nat}, m.read a = m'.read a → (e m).read a = (e m').read a

section Edits
variable {D E : Nat → Bool} {e e' : Memory → Memory}

theorem localEdit_id (D : Nat → Bool) : LocalEdit D id := ⟨fun _ _ _ => rfl, id⟩

theorem LocalEdit.comp (h' : LocalEdit D e') (h : LocalEdit D e) : LocalEdit D (e' ∘ e) :=
  ⟨fun m a ha => (h'.outside (e m) a ha).trans (h.outside m a ha), fun hm => h'.pointwise (h.pointwise hm)⟩

/-- R32: a write inside `D`. -/
theorem localEdit_write {a : Nat} (ha : D a = true) (v : Byte) : LocalEdit D fun m => m.write a v where
  outside m b hb := by
    have hne : b ≠ a := by
      rintro rfl
      rw [ha] at hb
      cases hb
    exact Memory.read_write_other hne m v
  pointwise {m m' b} hm := by
    rcases eq_or_ne b a with rfl | hne
    · rw [Memory.read_write_same, Memory.read_write_same]
    · rw [Memory.read_write_other hne, Memory.read_write_other hne, hm]

/-- R93: a run of elements inside `D` left unspecified. -/
theorem localEdit_forgetBytes {a n : Nat} (hD : ∀ b, D b = false → b < a ∨ a + n ≤ b) (k : Nat) :
    LocalEdit D fun m => m.forgetBytes a k n where
  outside m b hb := Memory.read_forgetBytes_outside n m (hD b hb)
  pointwise {m m' b} hm := by
    by_cases hb : b < a ∨ a + n ≤ b
    · rw [Memory.read_forgetBytes_outside n m hb, Memory.read_forgetBytes_outside n m' hb, hm]
    · obtain ⟨j, rfl⟩ := Nat.exists_eq_add_of_le (show a ≤ b by omega)
      have hj : j < n := by omega
      rw [Memory.read_forgetBytes_inside n m a k hj, Memory.read_forgetBytes_inside n m' a k hj]

/-- Two edits that share no element commute, as far as a reader can tell. -/
theorem LocalEdit.commute (h : LocalEdit D e) (h' : LocalEdit E e') (hDE : ∀ a, D a = true → E a = false)
    (m : Memory) (a : Nat) : (e (e' m)).read a = (e' (e m)).read a := by
  cases ha : D a with
  | true =>
    have hE := hDE a ha
    rw [h.pointwise (h'.outside m a hE), h'.outside (e m) a hE]
  | false => rw [h.outside (e' m) a ha, h'.pointwise (h.outside m a ha)]

end Edits

/-! ### A step as an edit of the destination -/

section Instances
variable {w : Nat}

/-- `m` holds the source of the operation at hand as the memory of `s` does (R31). -/
def SameSource (s : State w) (m : Memory) : Prop := ∀ a, s.inSrc a = true → m.read a = s.mem.read a

/-- The step `f` takes `s` to `t` by an edit of the destination, and over every memory that holds the same source it
makes the same edit and sets the same registers. -/
def EditsDst (f : State w → Result w) (s t : State w) : Prop :=
  ∃ e, LocalEdit s.inDst e ∧ ∀ m, SameSource s m → f (s.withMem m) = .next (t.withMem (e m))

theorem EditsDst.congr {f g : State w → Result w} {s t : State w} (h : EditsDst f s t)
    (hfg : ∀ m, g (s.withMem m) = f (s.withMem m)) : EditsDst g s t := by
  obtain ⟨e, he, hf⟩ := h
  exact ⟨e, he, fun m hm => (hfg m).trans (hf m hm)⟩

/-- A step that writes no memory. -/
theorem editsDst_of_registers {f : State w → Result w} {s t : State w}
    (h : ∀ m, SameSource s m → f (s.withMem m) = .next (t.withMem m)) : EditsDst f s t :=
  ⟨id, localEdit_id _, h⟩

/-- R31: below `LEN` the engine reads an element of its source. -/
theorem readSrc_withMem {s : State w} (hlt : s.si < s.len) {m : Memory} (hm : SameSource s m) :
    readSrc (s.withMem m) = readSrc s := by
  have hsi : s.si.toNat < s.len.toNat := hlt
  exact hm _ (decide_eq_true ⟨Nat.le_add_right _ _, Nat.add_lt_add_left hsi _⟩)

/-- R32, R38: a flush is an edit of the destination, and reads no memory at all. -/
theorem emitAll_withMem {bs : List Byte} {s u : State w} (h : emitAll bs s = .next u) :
    ∃ e, LocalEdit s.inDst e ∧ ∀ m, emitAll bs (s.withMem m) = .next (u.withMem (e m)) := by
  induction bs generalizing s with
  | nil =>
    obtain rfl := Host.Outcome.next.inj h
    exact ⟨id, localEdit_id _, fun _ => rfl⟩
  | cons v vs ih =>
    obtain ⟨s', hs', hu⟩ := andThen_eq_next h
    rw [emit] at hs'
    split at hs'
    · next hroom =>
      obtain rfl := Host.Outcome.next.inj hs'
      obtain ⟨e, he, hrun⟩ := ih hu
      have hin : s.inDst (s.bufs.dst + s.di.toNat) = true :=
        decide_eq_true ⟨Nat.le_add_right _ _, Nat.add_lt_add_left hroom _⟩
      refine ⟨_, he.comp (localEdit_write hin v), fun m => ?_⟩
      rw [emitAll, emit, if_pos (show (s.withMem m).di.toNat < (s.withMem m).bufs.dcap from hroom), andThen_next]
      exact hrun _
    · cases hs'

/-- A step that is a flush, begun with the registers of `s'` and followed by `post`, which sets registers only. -/
theorem editsDst_of_flush {f : State w → Result w} {bs : List Byte} {s s' u : State w} (post : State w → State w)
    (h : emitAll bs s' = .next u) (hdst : s'.bufs = s.bufs)
    (hf : ∀ m, SameSource s m → f (s.withMem m) = andThen (emitAll bs (s'.withMem m)) fun t => .next (post t))
    (hpost : ∀ m, post (u.withMem m) = (post u).withMem m) : EditsDst f s (post u) := by
  obtain ⟨e, he, hrun⟩ := emitAll_withMem h
  have hD : s'.inDst = s.inDst := by
    funext a
    rw [State.inDst, hdst, State.inDst]
  exact ⟨e, hD ▸ he, fun m hm => by rw [hf m hm, hrun m, andThen_next, hpost]⟩

/-- R116, R93: the failure exit leaves the destination unspecified. -/
theorem editsDst_of_fail {f : State w → Result w} {s : State w} {c : FailCause}
    (hf : ∀ m, SameSource s m → f (s.withMem m) = .next (takeFail c (s.withMem m))) : EditsDst f s (takeFail c s) := by
  have hD : ∀ a, s.inDst a = false → a < s.bufs.dst ∨ s.bufs.dst + s.bufs.dcap ≤ a := by
    intro a ha
    have hout := of_decide_eq_false ha
    omega
  exact ⟨_, localEdit_forgetBytes hD s.fresh, hf⟩

/-! ### The engine's steps -/

theorem encStep_editsDst {s t : State w} (h : encStep s = .next t) : EditsDst encStep s t := by
  obtain ⟨hlt, hpos, rfl⟩ | ⟨hlt, hpos, u, hu, rfl⟩ | ⟨hend, hpos, rfl⟩ | ⟨hend, hpos, u, hu, rfl⟩ |
    ⟨hend, hpos, u, hu, rfl⟩ := encStep_eq_next h
  · refine editsDst_of_registers fun m hm => ?_
    rw [encStep_byte (s := s.withMem m) hlt hpos, readSrc_withMem hlt hm]
    rfl
  · refine editsDst_of_flush (fun t => { t with acc := 0#24, pos := 2#2 }) hu rfl (fun m hm => ?_) fun _ => rfl
    rw [encStep_flush (s := s.withMem m) hlt hpos, readSrc_withMem hlt hm]
    rfl
  · exact editsDst_of_registers fun m _ => encStep_close (s := s.withMem m) hend hpos
  · refine editsDst_of_flush (fun t => takeDone t.di t) hu rfl (fun m _ => ?_) fun _ => rfl
    rw [encStep_tail (s := s.withMem m) hend (.inl hpos), State.withMem_pos, State.withMem_acc, hpos]
    rfl
  · refine editsDst_of_flush (fun t => takeDone t.di t) hu rfl (fun m _ => ?_) fun _ => rfl
    rw [encStep_tail (s := s.withMem m) hend (.inr hpos), State.withMem_pos, State.withMem_acc, hpos]
    rfl

theorem decStep_editsDst {s t : State w} (h : decStep s = .next t) : EditsDst decStep s t := by
  have hcheck {m : Memory} (hlt : s.si < s.len) (hm : SameSource s m) :
      checkChar (readSrc (s.withMem m)) (s.withMem m).pos (s.withMem m).endMark =
        checkChar (readSrc s) s.pos s.endMark := by
    rw [readSrc_withMem hlt hm, State.withMem_pos, State.withMem_endMark]
  obtain ⟨hlt, c, hc, rfl⟩ | ⟨hlt, hpos, v, e, hc, rfl⟩ | ⟨hlt, hpos, v, e, u, hc, hu, rfl⟩ | ⟨hend, hpos, rfl⟩ |
    ⟨hend, hpos, rfl⟩ := decStep_eq_next h
  · exact editsDst_of_fail fun m hm => decStep_reject (s := s.withMem m) hlt ((hcheck hlt hm).trans hc)
  · exact editsDst_of_registers fun m hm => decStep_char (s := s.withMem m) hlt ((hcheck hlt hm).trans hc) hpos
  · exact editsDst_of_flush (fun t => { t with acc := 0#24, pos := 0#2 }) hu rfl
      (fun m hm => decStep_flush (s := s.withMem m) hlt ((hcheck hlt hm).trans hc) hpos) fun _ => rfl
  · refine editsDst_of_fail fun m _ => ?_
    rw [decStep_close (s := s.withMem m) hend, if_pos (show (s.withMem m).pos ≠ 0#2 from hpos)]
  · refine editsDst_of_registers fun m _ => ?_
    rw [decStep_close (s := s.withMem m) hend, if_neg (not_not.2 (show (s.withMem m).pos = 0#2 from hpos))]
    rfl

/-- Log 9: the engine's step in a state that no run reaches. -/
theorem engineStep_of_encLen {s : State w} (hp : s.phase = .run) (hop : s.op = opB64EncLen) :
    engineStep s = encLenStep s := by
  rw [engineStep, if_pos hp, if_pos hop]

/-- Log 9: the engine's step in a state that no run reaches. -/
theorem engineStep_of_decLen {s : State w} (hp : s.phase = .run) (hop : s.op = opB64DecLen) :
    engineStep s = decLenStep s := by
  rw [engineStep, if_pos hp, if_neg (by simp [hop]), if_pos hop]

theorem op_cases (op : BitVec 2) : op = opB64EncLen ∨ op = opB64DecLen ∨ op = opB64Enc ∨ op = opB64Dec := by
  revert op
  decide

/-- R124: a step of a running engine is an edit of its destination that depends on memory through its source only. -/
theorem engineStep_editsDst {s t : State w} (hp : s.phase = .run) (h : engineStep s = .next t) :
    EditsDst engineStep s t := by
  obtain hop | hop | hop | hop := op_cases s.op
  · rw [engineStep_of_encLen hp hop] at h
    obtain rfl := Host.Outcome.next.inj h
    exact editsDst_of_registers fun m _ => engineStep_of_encLen (s := s.withMem m) hp hop
  · rw [engineStep_of_decLen hp hop] at h
    obtain rfl := Host.Outcome.next.inj h
    exact editsDst_of_registers fun m _ => engineStep_of_decLen (s := s.withMem m) hp hop
  · rw [engineStep_of_enc hp hop] at h
    exact (encStep_editsDst h).congr fun m => engineStep_of_enc (s := s.withMem m) hp hop
  · rw [engineStep_of_dec hp hop] at h
    exact (decStep_editsDst h).congr fun m => engineStep_of_dec (s := s.withMem m) hp hop

/-- The step over the memory `m` itself, and over every other that agrees with `m` on the source. -/
theorem engineStep_withMem {s t : State w} {m : Memory} (hp : s.phase = .run)
    (h : engineStep (s.withMem m) = .next t) :
    ∃ e, LocalEdit s.inDst e ∧ t.mem = e m ∧
      ∀ m', (∀ a, s.inSrc a = true → m'.read a = m.read a) → engineStep (s.withMem m') = .next (t.withMem (e m')) := by
  obtain ⟨e, he, hstep⟩ := engineStep_editsDst (s := s.withMem m) hp h
  have hself : t = t.withMem (e m) := Host.Outcome.next.inj (h.symm.trans (hstep m fun _ _ => rfl))
  exact ⟨e, he, congrArg State.mem hself, hstep⟩

/-- R91, R116: a step of the decoder that finds a cause takes the failure exit. -/
theorem stepAt_dec_fails {s : State w} (hs : Running opB64Dec s)
    (hcause : s.si < s.len ∧ (∃ c, checkChar (readSrc s) s.pos s.endMark = .error c) ∨ s.si = s.len ∧ s.pos ≠ 0#2) :
    ∃ c, stepAt s = .next (takeFail c s) := by
  obtain ⟨hp, hop, hi⟩ := hs
  rw [stepAt_engine hi, engineStep_of_dec hp hop]
  obtain ⟨hlt, c, hc⟩ | ⟨hend, hpos⟩ := hcause
  · exact ⟨c, decStep_reject hlt hc⟩
  · exact ⟨.truncatedInput, by rw [decStep_close hend, if_pos hpos]⟩

end Instances

/-- Settles O56: each step leaves the other's source alone, so each makes the edit it made alone; the edits lie in
disjoint destinations and commute. -/
theorem instancesDoNotInterfere : Obligations.InstancesDoNotInterfere := by
  rintro w v s₁ t₁ s₂ t₂ m hp₁ hp₂ ⟨hdst₁, hdst₂⟩ h₁ h₂
  obtain ⟨e₁, he₁, hmem₁, hstep₁⟩ := engineStep_withMem hp₁ h₁
  obtain ⟨e₂, he₂, hmem₂, hstep₂⟩ := engineStep_withMem hp₂ h₂
  have hsrc₁ : ∀ a, s₁.inSrc a = true → t₂.mem.read a = m.read a := fun a ha =>
    hmem₂ ▸ he₂.outside m a (Bool.eq_false_iff.2 fun hin => by simp [hdst₂ a hin] at ha)
  have hsrc₂ : ∀ a, s₂.inSrc a = true → t₁.mem.read a = m.read a := fun a ha =>
    hmem₁ ▸ he₁.outside m a (Bool.eq_false_iff.2 fun hin => by simp [(hdst₁ a hin).2] at ha)
  refine ⟨_, _, hstep₁ _ hsrc₁, hstep₂ _ hsrc₂, rfl, rfl, fun a => ?_⟩
  rw [State.withMem_mem, State.withMem_mem, hmem₁, hmem₂]
  exact he₁.commute he₂ (fun a ha => (hdst₁ a ha).1) m a

/-- Settles O35: either way the step is the failure exit, whose frame `failedFrom_takeFail` gives. -/
theorem failureExitKeepsRegistersAndOtherMemory : Obligations.FailureExitKeepsRegistersAndOtherMemory := by
  intro w s hs hcause
  obtain ⟨c, hstep⟩ := stepAt_dec_fails hs hcause
  obtain ⟨hregs, -, hout, -⟩ := failedFrom_takeFail c s
  exact ⟨_, hstep, hregs, hout⟩

end Sys2Proof.Machine

/-! ## Commands while busy, the end of an operation, and what its outcome depends on: O55, O53, O17, O48

How a command ends is a function of the command, its source text and the capacity of its destination (`ending`); a
block of any width that admits the command ends it so (`endsAs_execAt`), and two that end one way show one outcome
(`EndsAs.sameOutcome`). -/

namespace Sys2Proof.Machine

section Endings

/-! ### How a command ends -/

/-- How a command that is given a meaning ends, in numbers and bytes of no width. -/
inductive Ending where
  /-- R38, R126: no result, an element of the destination lies beyond `DCAP`. -/
  | overrun
  /-- R116: the failure exit. -/
  | failed
  /-- R102, R104: the value of a size estimator. -/
  | value (v : Nat)
  /-- R80, R92: the bytes of a transform, `RESULT` their number. -/
  | bytes (y : List Byte)

/-- A transform that yields `y` needs room for it (R38). -/
def endingIn (dcap : Nat) (y : List Byte) : Ending := if y.length ≤ dcap then .bytes y else .overrun

/-- R131: the ending of a command from its source text and `DCAP`. A rejected text still needs room for the units before
the place where it fails (R126). -/
def ending (i : Instr) (t : List Byte) (dcap : Nat) : Ending :=
  match i with
  | .b64enclen n => .value (encodedLength n)
  | .b64declen n => .value (decodedLength n)
  | .b64enc _ => endingIn dcap (encText t)
  | .b64dec _ =>
    match decText t with
    | some y => endingIn dcap y
    | none => if (failCause t).any fun p => dcap < bytesBefore t p.2 then .overrun else .failed

/-- The result `r` of the command `i` shows an ending, with the bytes of a transform from address `dst` on. -/
def EndsAs {w : Nat} (i : Instr) (dst : Nat) (r : Result w) : Ending → Prop
  | .overrun => r = .fault .dstOverrun
  | .failed => ∃ t, r = .next t ∧ t.phase = .done ∧ t.fail = true ∧ t.result = Config.failVal
  | .value v => isTransform (opOf i) = false ∧
      ∃ t, r = .next t ∧ t.phase = .done ∧ t.fail = false ∧ t.result.toNat = v
  | .bytes y => ∃ t m, r = .next t ∧ t.phase = .done ∧ t.fail = false ∧ t.result.toNat = y.length ∧
      t.mem = Memory.writeBytes m dst y

/-- R131, R119: what the host sees of the command `i` in a state `t` of one block it sees in a state `t'` of
another, their destinations at `dst` and `dst'`. -/
def SameView {w v : Nat} (i : Instr) (dst dst' : Nat) (t : State w) (t' : State v) : Prop :=
  t'.fail = t.fail ∧ t'.phase = t.phase ∧ (t.fail = false → t'.result.toNat = t.result.toNat) ∧
    (t.fail = true → t'.result = Config.failVal ∧ t.result = Config.failVal) ∧
    (isTransform (opOf i) = true → t.fail = false → ∀ k, k < t.result.toNat →
      t'.mem.read (dst' + k) = t.mem.read (dst + k))

/-- R131, R119: the host sees the same of two results, the fault included. -/
def SameOutcome {w v : Nat} (i : Instr) (dst dst' : Nat) (r : Result w) (r' : Result v) : Prop :=
  (∀ x, r = .fault x → r' = .fault x) ∧ ∀ t, r = .next t → ∃ t', r' = .next t' ∧ SameView i dst dst' t t'

variable {w v : Nat}

theorem SameView.sameOutcome {i : Instr} {dst dst' : Nat} {t : State w} {t' : State v} (h : SameView i dst dst' t t') :
    SameOutcome i dst dst' (.next t) (.next t') :=
  ⟨nofun, fun _ ht => ⟨t', rfl, Host.Outcome.next.inj ht ▸ h⟩⟩

/-- Two blocks that end a command one way show one outcome. -/
theorem EndsAs.sameOutcome {i : Instr} {dst dst' : Nat} {r : Result w} {r' : Result v} {e : Ending}
    (h : EndsAs i dst r e) (h' : EndsAs i dst' r' e) : SameOutcome i dst dst' r r' := by
  cases e with
  | overrun =>
    obtain rfl := h
    exact ⟨fun x hx => Host.Outcome.fault.inj hx ▸ h', nofun⟩
  | failed =>
    obtain ⟨t, rfl, hphase, hfail, hresult⟩ := h
    obtain ⟨t', rfl, hphase', hfail', hresult'⟩ := h'
    exact SameView.sameOutcome ⟨hfail'.trans hfail.symm, hphase'.trans hphase.symm, by simp [hfail],
      fun _ => ⟨hresult', hresult⟩, by simp [hfail]⟩
  | value n =>
    obtain ⟨hT, t, rfl, hphase, hfail, hresult⟩ := h
    obtain ⟨-, t', rfl, hphase', hfail', hresult'⟩ := h'
    exact SameView.sameOutcome ⟨hfail'.trans hfail.symm, hphase'.trans hphase.symm,
      fun _ => hresult'.trans hresult.symm, by simp [hfail], by simp [hT]⟩
  | bytes y =>
    obtain ⟨t, m, rfl, hphase, hfail, hresult, hmem⟩ := h
    obtain ⟨t', m', rfl, hphase', hfail', hresult', hmem'⟩ := h'
    refine SameView.sameOutcome ⟨hfail'.trans hfail.symm, hphase'.trans hphase.symm,
      fun _ => hresult'.trans hresult.symm, by simp [hfail], fun _ _ k hk => ?_⟩
    rw [hresult] at hk
    rw [hmem, hmem', Memory.read_writeBytes_inside _ _ _ hk, Memory.read_writeBytes_inside _ _ _ hk]

/-- R102, R104: a size estimator ends with its value, whatever the buffers. -/
theorem endsAs_estimator {i : Instr} {s : State w} (hT : isTransform (opOf i) = false)
    (hc : CanStart (opOf i) i.lenOf s) :
    EndsAs i s.bufs.dst (execAt i s) (.value (estimate (opOf i) i.lenOf)) := by
  obtain ⟨t, ht, hregs, hresult⟩ := execAt_estimator_completes hT hc
  exact ⟨hT, t, ht, (execAt_ends ht).2, by rw [hregs], hresult⟩

/-- R70, R79, R126: `B64ENC` ends with the encoded source, where that fits. -/
theorem endsAs_enc {n : Nat} {s : State w} (hc : CanStart opB64Enc n s) :
    EndsAs (.b64enc n) s.bufs.dst (execAt (.b64enc n) s) (endingIn s.bufs.dcap (encText (sourceOf s n))) := by
  have hlen : (encText (sourceOf s n)).length = encodedLength n := by rw [length_encText, length_sourceOf]
  rw [endingIn, hlen]
  split_ifs with hcap
  · obtain ⟨t, ht, hregs, hresult, -⟩ := encoderOutcome_of_canStart hc hcap
    exact ⟨t, s.mem, ht, (execAt_ends ht).2, by rw [hregs], hresult.trans hlen.symm, by rw [hregs]⟩
  · exact encoderShortBufferFaults w n s hc (not_le.1 hcap)

/-- R92, R126: `B64DEC` ends with the bytes of an accepted text, where they fit. -/
theorem endsAs_dec_of_accepted {n : Nat} {s : State w} {y : List Byte} (hc : CanStart opB64Dec n s)
    (hy : decText (sourceOf s n) = some y) :
    EndsAs (.b64dec n) s.bufs.dst (execAt (.b64dec n) s) (endingIn s.bufs.dcap y) := by
  rw [endingIn]
  split_ifs with hcap
  · obtain ⟨t, ht, ⟨hregs, hresult, -⟩, -⟩ := decoderOutcome_of_canStart hc hy hcap
    exact ⟨t, s.mem, ht, (execAt_ends ht).2, by rw [hregs], hresult, by rw [hregs]⟩
  · obtain ⟨hshort, -⟩ := decoderShortBufferFaults w n s hc
    exact hshort y hy (not_le.1 hcap)

/-- R93, R126: `B64DEC` ends by the failure exit on a rejected text, where the units before the offender fit. -/
theorem endsAs_dec_of_rejected {n i : Nat} {s : State w} {c : FailCause} (hc : CanStart opB64Dec n s)
    (hcause : failCause (sourceOf s n) = some (c, i)) :
    EndsAs (.b64dec n) s.bufs.dst (execAt (.b64dec n) s)
      (if s.bufs.dcap < bytesBefore (sourceOf s n) i then .overrun else .failed) := by
  split_ifs with hcap
  · obtain ⟨-, hshort⟩ := decoderShortBufferFaults w n s hc
    exact hshort c i hcause hcap
  · obtain ⟨t, ht, hregs, -⟩ := decoderFailure_of_canStart hc hcause (not_lt.1 hcap)
    exact ⟨t, ht, (execAt_ends ht).2, by rw [hregs], by rw [hregs]⟩

/-- R131: a command that may start ends as its source text and `DCAP` say. -/
theorem endsAs_execAt {i : Instr} {s : State w} (hc : CanStart (opOf i) i.lenOf s) :
    EndsAs i s.bufs.dst (execAt i s) (ending i (sourceOf s i.lenOf) s.bufs.dcap) := by
  cases i with
  | b64enclen n => exact endsAs_estimator rfl hc
  | b64declen n => exact endsAs_estimator rfl hc
  | b64enc n => exact endsAs_enc hc
  | b64dec n =>
    rw [ending, Instr.lenOf]
    cases hy : decText (sourceOf s n) with
    | some y => exact endsAs_dec_of_accepted hc hy
    | none =>
      obtain ⟨hrejected, -⟩ := truncationFoundLast (sourceOf s n)
      obtain ⟨c, i, hcause⟩ := hrejected.1 hy
      simpa only [hcause, Option.any_some, decide_eq_true_eq] using endsAs_dec_of_rejected (n := n) hc hcause

/-! ### The steps of an operation in progress -/

/-- R126: refusals are for the host's actions; a step of an operation in progress is none. -/
theorem Invariant.engineStep_ne_refused {s : State w} (hs : Invariant s) (hp : s.phase = .run) (r : Refusal) :
    engineStep s ≠ .refused r := by
  rcases hs.op_of_run hp with hop | hop
  · rw [engineStep_of_enc hp hop]
    exact encStep_ne_refused s r
  · rw [engineStep_of_dec hp hop]
    exact decStep_ne_refused s r

/-- R72, R84: a step of an operation in progress takes one more element or ends it, and keeps its command. -/
theorem Invariant.engineStep_advances_or_ends {s t : State w} (hs : Invariant s) (hp : s.phase = .run)
    (h : engineStep s = .next t) : (s.si < s.len ∧ Advances s t ∨ t.phase = .done) ∧ SameCommand s t := by
  rcases hs.op_of_run hp with hop | hop
  · rw [engineStep_of_enc hp hop] at h
    exact ⟨encStep_advances_or_ends h, encStep_sameCommand h⟩
  · rw [engineStep_of_dec hp hop] at h
    exact ⟨decStep_advances_or_ends h, decStep_sameCommand h⟩

/-- R38, R134: the one other thing that a step of an operation in progress can do is to overrun a destination below the
estimator's value. -/
theorem Invariant.stepAt_of_run {s : State w} (hs : Invariant s) (hp : s.phase = .run) (hi : s.inbox = []) :
    (∃ t, stepAt s = .next t ∧ (s.si < s.len ∧ Advances s t ∨ t.phase = .done) ∧ SameCommand s t) ∨
      s.bufs.dcap < estimate s.op s.len.toNat ∧ stepAt s = .fault .dstOverrun := by
  cases h : stepAt s with
  | next t =>
    rw [stepAt_engine hi] at h
    exact .inl ⟨t, rfl, hs.engineStep_advances_or_ends hp h⟩
  | fault r =>
    have hshort : s.bufs.dcap < estimate s.op s.len.toNat := by
      by_contra hcap
      obtain ⟨t, ht⟩ := capacityMetNeverFaults w s hs hp hi (not_lt.1 hcap)
      cases h.symm.trans ht
    cases r with
    | dstOverrun => exact .inr ⟨hshort, rfl⟩
    | noEnabledStep => exact absurd h (engineNeverStuck w s hs)
  | refused r =>
    rw [stepAt_engine hi] at h
    exact absurd h (hs.engineStep_ne_refused hp r)

/-- R138: a running block is busy, whatever else is wrong with the command (log 12). -/
theorem startRefusal_of_run {s : State w} (hp : s.phase = .run) (op : BitVec 2) (n : Nat) :
    startRefusal op n s = some .busy := by
  simp [startRefusal, State.busy, hp]

end Endings

/-- Settles O55: both blocks end the command as the common source and `DCAP` say. -/
theorem outcomeDependsOnInputsOnly : Obligations.OutcomeDependsOnInputsOnly := by
  intro w v i s t s' hc hc' hsource hdcap
  have h' := endsAs_execAt hc'
  rw [← hsource, ← hdcap] at h'
  obtain ⟨hfault, hnext⟩ := (endsAs_execAt hc).sameOutcome h'
  exact ⟨hfault, hnext t⟩

/-- Settles O53: by induction on the elements still to be read, of which every step that does not end the operation
takes one. -/
theorem operationTerminates : Obligations.OperationTerminates := by
  intro w s hs hp hi
  induction hm : s.len.toNat - s.si.toNat using Nat.strong_induction_on generalizing s with
  | _ m ih =>
    obtain ⟨u, hstep, ⟨hlt, hadv⟩ | hdone, hcmd⟩ | ⟨hshort, hstep⟩ := hs.stepAt_of_run hp hi
    · obtain ⟨hsi, hle⟩ := toNat_si_succ hlt
      have hrest : u.len.toNat - u.si.toNat + 1 = m := by rw [hadv.len, hadv.si, hsi]; omega
      obtain ⟨k, hk, hend⟩ := ih _ (by omega) u (stepKeepsInvariant w s u hs hstep) (hadv.phase.trans hp)
        (hcmd.inbox.trans hi) rfl
      rw [hcmd.op, hcmd.len, hcmd.bufs] at hend
      exact ⟨k + 1, by omega, by rwa [runSteps, hstep, andThen_next]⟩
    · exact ⟨1, by omega, .inl ⟨u, by rw [runSteps, hstep, andThen_next, runSteps_zero], hdone⟩⟩
    · exact ⟨1, by omega, .inr ⟨hshort, by rw [runSteps, hstep, andThen_fault]⟩⟩

/-- Settles O17: `busy` is the reason that stops the start, with which every command begins. -/
theorem busyBlockRefusesCommands : Obligations.BusyBlockRefusesCommands := by
  intro w i s hp
  have hcall : execAt i s = .refused .busy := (execAt_eq_refused i s .busy).2 (startRefusal_of_run hp _ _)
  refine ⟨hcall, ?_⟩
  cases hT : isTransform (opOf i) with
  | false => rw [startOnly_estimator hT, hcall]
  | true => rw [startOnly_transform hT, beginOp, startRefusal_of_run hp]

/-- Settles O48: the reset values, and a block that waits because no operation is in progress. -/
theorem resetState : Obligations.ResetState :=
  ⟨rfl, rfl, rfl, rfl, rfl, (stepAt_engine rfl).trans (engineStep_of_not_run nofun)⟩

end Sys2Proof.Machine
